-- ==== Sys2Proof/Word.lean ====
section
/-! DEFINITION. The word types of the machine (spec/00_scope.md R6, R8, R9). -/

namespace Sys2Proof

/-- A register value, an address or a 32-bit instruction (R6: 32-bit registers and addresses). -/
abbrev Word := BitVec 32

/-- A halfword: a 16-bit T32 instruction, or one half of a 32-bit one (R7). -/
abbrev Half := BitVec 16

/-- One byte of memory (R41). -/
abbrev Byte := BitVec 8

end Sys2Proof
end

