-- ==== Sys2Proof/Syntax.lean ====
section
/-! DEFINITION. The instructions of spec/opcode_table.json as data, and the operands they carry. -/

namespace Sys2Proof

/-- The instruction set in use (spec/10_state.md R27). -/
inductive ISet where
  | a32
  | t32
deriving DecidableEq, Repr

/-- The fifteen conditions of spec/30_encoding.md R69, in the order of their `cond` codes 0000 to
1110. `cond = 1111` is no condition of UXTB (R61), so it has no constructor. -/
inductive Cond where
  | eq | ne | cs | cc | mi | pl | vs | vc | hi | ls | ge | lt | gt | le | al
deriving DecidableEq, Repr

/-- The rotation, named by its amount in bits: the four rows of the `<amount>` table, in the order of
the `rotate` field (spec/30_encoding.md R77). -/
inductive Rotation where
  | ror0 | ror8 | ror16 | ror24
deriving DecidableEq, Repr

/-- A register number as a 4-bit field names it: 0 to 15 (spec/10_state.md R20). -/
abbrev RegNum := Fin 16

/-- A register number as a 3-bit field names it: 0 to 7 (spec/10_state.md R21, T1). -/
abbrev LowReg := Fin 8

/-- One constructor per row of spec/opcode_table.json, operands in the order of the encoding's fields
from high bits to low. -/
inductive Instr where
  /-- Row UXTB_A1: A32, 32 bits (spec/30_encoding.md R61). -/
  | uxtbA1 (cond : Cond) (rd : RegNum) (rotate : Rotation) (rm : RegNum)
  /-- Row UXTB_T1: T32, 16 bits (R62). -/
  | uxtbT1 (rm : LowReg) (rd : LowReg)
  /-- Row UXTB_T2: T32, 32 bits (R63). -/
  | uxtbT2 (rd : RegNum) (rotate : Rotation) (rm : RegNum)
deriving DecidableEq, Repr

/-- The bits of one instruction before decoding: a single halfword, or 32 bits with the numbering of
spec/00_scope.md R7 (a 32-bit T32 instruction is `hw1:hw2`, `hw1` in bits 31..16). -/
inductive RawInstr where
  | half (h : Half)
  | word (w : Word)
deriving DecidableEq, Repr

/-- The instruction set an instruction belongs to (spec/30_encoding.md R60). -/
def Instr.iset : Instr → ISet
  | .uxtbA1 .. => .a32
  | .uxtbT1 .. => .t32
  | .uxtbT2 .. => .t32

end Sys2Proof
end

