-- ==== Sys2Proof/WellFormed.lean ====
section
/-! DEFINITION. Which instruction terms the spec gives a meaning: register 15 is excluded in A1 and T2
(spec/10_state.md R21); T1 cannot name it, and register 13 is permitted everywhere. -/

namespace Sys2Proof

/-- The destination or the source is register 15: the UNPREDICTABLE case of the Decode fragments of A1
and T2 (spec/30_encoding.md R64). -/
def namesR15 (rd rm : RegNum) : Bool := rd == 15 || rm == 15

/-- The instruction is one whose behaviour the spec defines (spec/10_state.md R21). -/
def Instr.wf : Instr → Bool
  | .uxtbA1 _ rd _ rm => !namesR15 rd rm
  | .uxtbT1 _ _ => true
  | .uxtbT2 rd _ rm => !namesR15 rd rm

end Sys2Proof
end

