-- ==== Sys2Proof/Decode.lean ====
section
/-! DEFINITION. The decoder of spec/30_encoding.md R66, total on any bits and rejecting by name, the
byte order and the T32 length rule of spec/20_memory.md R42 and R43, and the encoder written from the
patterns of R61 to R63. -/

namespace Sys2Proof

/-- Why the decoder gives no instruction. The first three are the decoder's refusals of R66; the last
is no outcome of a step (the fetch reads what it needs) and is answered by `decodeBytes` alone. -/
inductive DecodeError where
  /-- No row matches (R68). -/
  | notInScope
  /-- A should-be-zero bit is 1 (R67). -/
  | unpredictableSBZ
  /-- Register 15 is named (R66 step 4). -/
  | unpredictableR15
  /-- The byte list ends before the instruction does. -/
  | truncated
deriving DecidableEq, Repr

/-! ### Byte order and length -/

/-- The little-endian halfword of two bytes, the lower-addressed first (spec/20_memory.md R42). -/
def le16 (b0 b1 : Byte) : Half := b1 ++ b0

/-- The little-endian word of four bytes, the lowest-addressed first (spec/20_memory.md R42). -/
def le32 (b0 b1 b2 b3 : Byte) : Word := b3 ++ b2 ++ b1 ++ b0

/-- A T32 instruction is 32 bits iff `hw1[15:11]` is 11101, 11110 or 11111 (spec/20_memory.md R43). -/
def isWide (hw1 : Half) : Bool :=
  let top := hw1.extractLsb' 11 5
  top == 0b11101#5 || top == 0b11110#5 || top == 0b11111#5

/-- The length of an instruction in bytes (spec/20_memory.md R43: 4 for a word, 2 for a halfword). -/
def RawInstr.len : RawInstr → Nat
  | .half _ => 2
  | .word _ => 4

/-- The length of a decoded instruction in bytes (spec/10_state.md R24: 4 for A1 and T2, 2 for T1). -/
def Instr.len : Instr → Nat
  | .uxtbA1 .. => 4
  | .uxtbT1 .. => 2
  | .uxtbT2 .. => 4

/-! ### Operand fields (R64) -/

/-- The register number a 4-bit field holds: `uint(field)` (R64). -/
def regOfField (f : BitVec 4) : RegNum := f.toFin

/-- The register number a 3-bit field holds: `uint(field)` (R64). -/
def lowRegOfField (f : BitVec 3) : LowReg := f.toFin

/-- The `rotate` field (R77: 00 omitted, 01 is 8, 10 is 16, 11 is 24). -/
def rotationOfField (f : BitVec 2) : Rotation :=
  match f.toFin with
  | 0 => .ror0
  | 1 => .ror8
  | 2 => .ror16
  | 3 => .ror24

/-- The `cond` field (R69); 1111 is excluded by the diagram (R61). -/
def condOfField (f : BitVec 4) : Option Cond :=
  match f.toNat with
  | 0 => some .eq
  | 1 => some .ne
  | 2 => some .cs
  | 3 => some .cc
  | 4 => some .mi
  | 5 => some .pl
  | 6 => some .vs
  | 7 => some .vc
  | 8 => some .hi
  | 9 => some .ls
  | 10 => some .ge
  | 11 => some .lt
  | 12 => some .gt
  | 13 => some .le
  | 14 => some .al
  | _ => none

/-! ### The opcode table (R65) -/

/-- Row A1, loose: every fixed bit but the should-be-zero bits, and `cond != 1111`. -/
def matchesA1 (w : Word) : Bool :=
  w &&& 0x0FFF00F0#32 == 0x06EF0070#32 && w.extractLsb' 28 4 != 0b1111#4

/-- Row A1, strict: bits 9 and 8 are 0 as well. -/
def strictA1 (w : Word) : Bool := w &&& 0x0FFF03F0#32 == 0x06EF0070#32

/-- Row T1, which has no should-be-zero bit. -/
def matchesT1 (h : Half) : Bool := h &&& 0xFFC0#16 == 0xB2C0#16

/-- Row T2, loose. -/
def matchesT2 (w : Word) : Bool := w &&& 0xFFFFF080#32 == 0xFA5FF080#32

/-- Row T2, strict: bit 6 is 0 as well. -/
def strictT2 (w : Word) : Bool := w &&& 0xFFFFF0C0#32 == 0xFA5FF080#32

/-! ### The decoder (R66) -/

/-- R66 on an A32 word. The condition field is read where row A1 has matched, so `none` is the
`cond = 1111` that the row excludes. -/
def decodeA1 (w : Word) : Except DecodeError Instr :=
  if matchesA1 w then
    if strictA1 w then
      let rd := regOfField (w.extractLsb' 12 4)
      let rm := regOfField (w.extractLsb' 0 4)
      if namesR15 rd rm then .error .unpredictableR15
      else
        match condOfField (w.extractLsb' 28 4) with
        | some c => .ok (.uxtbA1 c rd (rotationOfField (w.extractLsb' 10 2)) rm)
        | none => .error .notInScope
    else .error .unpredictableSBZ
  else .error .notInScope

/-- R66 on a 16-bit T32 instruction. -/
def decodeT1 (h : Half) : Except DecodeError Instr :=
  if matchesT1 h then
    .ok (.uxtbT1 (lowRegOfField (h.extractLsb' 3 3)) (lowRegOfField (h.extractLsb' 0 3)))
  else .error .notInScope

/-- R66 on a 32-bit T32 instruction `hw1:hw2`. -/
def decodeT2 (w : Word) : Except DecodeError Instr :=
  if matchesT2 w then
    if strictT2 w then
      let rd := regOfField (w.extractLsb' 8 4)
      let rm := regOfField (w.extractLsb' 0 4)
      if namesR15 rd rm then .error .unpredictableR15
      else .ok (.uxtbT2 rd (rotationOfField (w.extractLsb' 4 2)) rm)
    else .error .unpredictableSBZ
  else .error .notInScope

/-- The decoder: a row is eligible when its instruction set and its width are those of the fetched
instruction (R66 step 1), so an A32 halfword matches none. -/
def decode : ISet → RawInstr → Except DecodeError Instr
  | .a32, .word w => decodeA1 w
  | .a32, .half _ => .error .notInScope
  | .t32, .half h => decodeT1 h
  | .t32, .word w => decodeT2 w

/-- The first instruction's bits in a list of bytes, lowest address first, with the bytes after it
(spec/20_memory.md R43 on a list). -/
def rawOfBytes : ISet → List Byte → Option (RawInstr × List Byte)
  | .a32, b0 :: b1 :: b2 :: b3 :: rest => some (.word (le32 b0 b1 b2 b3), rest)
  | .t32, b0 :: b1 :: rest =>
    if isWide (le16 b0 b1) then
      match rest with
      | b2 :: b3 :: rest' => some (.word (le16 b0 b1 ++ le16 b2 b3), rest')
      | _ => none
    else some (.half (le16 b0 b1), rest)
  | _, _ => none

/-- The decoder on any list of bytes: the first instruction, with the bytes after it. -/
def decodeBytes (iset : ISet) (bytes : List Byte) : Except DecodeError (Instr × List Byte) :=
  match rawOfBytes iset bytes with
  | none => .error .truncated
  | some (raw, rest) =>
    match decode iset raw with
    | .ok i => .ok (i, rest)
    | .error e => .error e

/-! ### The encoder (R61 to R63) -/

/-- The 4-bit field of a register number. -/
def regField (r : RegNum) : BitVec 4 := BitVec.ofFin r

/-- The 3-bit field of a register number. -/
def lowRegField (r : LowReg) : BitVec 3 := BitVec.ofFin r

/-- The `cond` field of a condition (R69). -/
def Cond.field : Cond → BitVec 4
  | .eq => 0b0000#4
  | .ne => 0b0001#4
  | .cs => 0b0010#4
  | .cc => 0b0011#4
  | .mi => 0b0100#4
  | .pl => 0b0101#4
  | .vs => 0b0110#4
  | .vc => 0b0111#4
  | .hi => 0b1000#4
  | .ls => 0b1001#4
  | .ge => 0b1010#4
  | .lt => 0b1011#4
  | .gt => 0b1100#4
  | .le => 0b1101#4
  | .al => 0b1110#4

/-- The `rotate` field of a rotation (R77). -/
def Rotation.field : Rotation → BitVec 2
  | .ror0 => 0b00#2
  | .ror8 => 0b01#2
  | .ror16 => 0b10#2
  | .ror24 => 0b11#2

/-- `cccc 0110 1110 1111 dddd rr(0)(0) 0111 mmmm` (R61). -/
def encodeA1 (c : Cond) (rd : RegNum) (rotate : Rotation) (rm : RegNum) : Word :=
  c.field ++ 0b011011101111#12 ++ regField rd ++ rotate.field ++ 0b00#2 ++ 0b0111#4
    ++ regField rm

/-- `1011 0010 11mm mddd` (R62). -/
def encodeT1 (rm rd : LowReg) : Half := 0b1011001011#10 ++ lowRegField rm ++ lowRegField rd

/-- `1111 1010 0101 1111 | 1111 dddd 1(0)rr mmmm` (R63). -/
def encodeT2 (rd : RegNum) (rotate : Rotation) (rm : RegNum) : Word :=
  0b11111010010111111111#20 ++ regField rd ++ 0b10#2 ++ rotate.field ++ regField rm

/-- The bits of an instruction, should-be-zero bits 0 (R67). -/
def encode : Instr → RawInstr
  | .uxtbA1 c rd rotate rm => .word (encodeA1 c rd rotate rm)
  | .uxtbT1 rm rd => .half (encodeT1 rm rd)
  | .uxtbT2 rd rotate rm => .word (encodeT2 rd rotate rm)

/-- A halfword's bytes as memory holds them, lowest address first (spec/20_memory.md R42). -/
def halfBytes (h : Half) : List Byte := [h.extractLsb' 0 8, h.extractLsb' 8 8]

/-- An instruction's bytes as memory holds them: an A32 word little-endian whole, a T32 instruction
halfword by halfword, `hw1` first (spec/20_memory.md R42, R43). -/
def layout : ISet → RawInstr → List Byte
  | _, .half h => halfBytes h
  | .a32, .word w => halfBytes (w.extractLsb' 0 16) ++ halfBytes (w.extractLsb' 16 16)
  | .t32, .word w => halfBytes (w.extractLsb' 16 16) ++ halfBytes (w.extractLsb' 0 16)

/-! ### Words numbered as spec/opcode_table.json numbers them -/

/-- The instruction set of a table word. The table's only 16-bit row is T1; of its 32-bit rows, T2
has `hw1:hw2 = FA5F…` (the table's numbering, hw1 in bits 31..16) and every other word is read as
A32. The word itself tells, because no word matches both 32-bit rows (log 3). -/
def tableISet (nbits w : Nat) : ISet :=
  if nbits ≤ 16 then .t32
  else if matchesT2 (BitVec.ofNat 32 w) then .t32
  else .a32

/-- The four bytes memory holds for a table word: its own bytes, and zeros after a halfword. -/
def tableBytes (nbits w : Nat) : List Byte :=
  if nbits ≤ 16 then halfBytes (BitVec.ofNat 16 (w % 2 ^ nbits)) ++ [0#8, 0#8]
  else layout (tableISet nbits w) (.word (BitVec.ofNat 32 (w % 2 ^ nbits)))

/-- The instruction the decoder reads from a word of spec/opcode_table.json (log 3). -/
def decodeTableWord (nbits w : Nat) : Option Instr :=
  match decodeBytes (tableISet nbits w) (tableBytes nbits w) with
  | .ok (i, _) => some i
  | .error _ => none

end Sys2Proof
end

