-- ==== Sys2Proof/Config.lean ====
section
/-! DEFINITION. What is fixed for the machine (spec/00_scope.md R6). The spec leaves no value open on
a path that goes on (spec/93_implementation_defined.md part 1 answers every open behaviour by a
refusal, a parameter or "not modelled"), so there is no free value here. -/

namespace Sys2Proof

/-- The number of byte addresses: addresses are 32 bits wide (R6, R41, D9). -/
def Config.addressLimit : Nat := 4294967296

end Sys2Proof
end

