-- ==== Sys2Proof/Machine/State.lean ====
section
/-! DEFINITION. Everything the spec gives the machine (spec/10_state.md), as plain data, and the
reasons a step can stop (spec/60_exceptions.md R112, R113). -/

namespace Sys2Proof.Machine

/-- The fields of CPSR the spec carries, each a component of its own (spec/10_state.md R25, D22). -/
structure Cpsr where
  n : Bool
  z : Bool
  c : Bool
  v : Bool
  /-- Data-independent timing: carried, and no rule reads or writes it (spec/70_reset_and_hazards.md
  R136, D19). -/
  dit : Bool
deriving DecidableEq, Repr

/-- `Mem` (spec/10_state.md R29, spec/20_memory.md R40): the mapped bytes with their addresses. An
address the list does not hold is not mapped. -/
abbrev Memory := List Host.Cell

/-- The canonical form of a memory: addresses strictly rising, each one of the 2^32 there are
(spec/20_memory.md R41). An unlisted address reads as no value, so no entry can repeat it. -/
abbrev Memory.wf (m : Memory) : Prop :=
  m.Pairwise (fun p q => p.1 < q.1) ∧ ∀ c ∈ m, c.1 < Config.addressLimit

/-- The state of the one processing element: every component of spec/10_state.md, as the launch state
of spec/70_reset_and_hazards.md R131 lists them. -/
structure State where
  /-- `R[0]` to `R[15]`; `R[15]` is held and never read or written (R20, R21). -/
  regs : Vector Word 16
  /-- The byte address of the instruction being executed, apart from `R[15]` (R23). -/
  pc : Word
  cpsr : Cpsr
  /-- The instruction set in use (R27). -/
  iset : ISet
  /-- The T32 If-Then state (R28). -/
  itstate : BitVec 8
  mem : Memory
deriving DecidableEq, Repr

/-- There is no fault: UXTB raises no exception and a step has exactly two outcomes, next and refused
(spec/60_exceptions.md R110, R112). Safe: nothing is answered where nothing can happen (log 4). -/
inductive Fault : Type
deriving DecidableEq, Repr

/-- The closed list of spec/60_exceptions.md R113. Each is safe: the model gives no meaning where the
hardware does something. -/
inductive Refusal where
  /-- An instruction without a meaning yet, by its mnemonic; raised by no arm of this model. Safe. -/
  | notModelled (mnemonic : String)
  /-- The fetch: pc is not aligned for the instruction set (spec/20_memory.md R43, R44). Safe. -/
  | fetchMisaligned
  /-- The fetch, and the meanings of T1 and T2: a T32 instruction with itstate not 0
  (spec/10_state.md R28, spec/20_memory.md R43; log 5). Safe. -/
  | inITBlock
  /-- The fetch: a byte is not mapped, or the read runs past the top (spec/20_memory.md R42). Safe. -/
  | fetchUnmapped
  /-- The decoder: no UXTB pattern matches (spec/30_encoding.md R68). Safe. -/
  | notInScope
  /-- The decoder: a should-be-zero bit is 1 (spec/30_encoding.md R67). Safe. -/
  | unpredictableSBZ
  /-- The decoder, and the meanings of A1 and T2: register 15 is named (spec/40_uxtb.md R92, R94;
  log 6). Safe. -/
  | unpredictableR15
  /-- The operation: pc + len would reach 2^32 (spec/10_state.md R24, spec/40_uxtb.md R90). Safe. -/
  | pcWrap
deriving DecidableEq, Repr

/-- What one step answers. -/
abbrev StepOutcome := Host.Outcome State Fault Refusal

/-- The state after reset. The spec gives no component a reset value (spec/10_state.md R31,
spec/70_reset_and_hazards.md R130): every value here is a DESIGN CHOICE (log 1), memory with nothing
mapped among them (log 2). -/
def State.reset : State where
  regs := Vector.replicate 16 0#32
  pc := 0#32
  cpsr := { n := false, z := false, c := false, v := false, dit := false }
  iset := .a32
  itstate := 0#8
  mem := []

end Sys2Proof.Machine
end

