-- ==== Sys2Proof/Machine/Flags.lean ====
section
/-! DEFINITION. The condition check (spec/30_encoding.md R69). UXTB computes no flag (R26): the flags
are only read, and only here. -/

namespace Sys2Proof.Machine

/-- `ConditionPassed()`: the table of R69 (D5, GK3; log 12). -/
def conditionPassed (cond : Cond) (f : Cpsr) : Bool :=
  match cond with
  | .eq => f.z
  | .ne => !f.z
  | .cs => f.c
  | .cc => !f.c
  | .mi => f.n
  | .pl => !f.n
  | .vs => f.v
  | .vc => !f.v
  | .hi => f.c && !f.z
  | .ls => !f.c || f.z
  | .ge => f.n == f.v
  | .lt => f.n != f.v
  | .gt => !f.z && f.n == f.v
  | .le => f.z || f.n != f.v
  | .al => true

end Sys2Proof.Machine
end

