-- ==== Sys2Proof/Machine/Operands.lean ====
section
/-! DEFINITION. The operand form of UXTB: a register rotated right by 0, 8, 16 or 24 bits
(spec/00_scope.md R8, spec/30_encoding.md R64, R77). -/

namespace Sys2Proof.Machine

/-- The rotation in bits: 8 times the rotate field (spec/30_encoding.md R64, R77). -/
def rotationAmount : Rotation → Nat
  | .ror0 => 0
  | .ror8 => 8
  | .ror16 => 16
  | .ror24 => 24

/-- The register of the 16 that a 3-bit field names (spec/30_encoding.md R64, T1). -/
def regOfLow (r : LowReg) : RegNum := r.castLE (by decide)

/-- `ror32(v, s)`: `v` for `s = 0`, else `v[s-1:0] : v[31:s]` (spec/00_scope.md R8, GK2). -/
def ror32 (v : Word) (s : Nat) : Word := (v >>> s) ||| (v <<< (32 - s))

/-- `zext_32` of a byte (spec/00_scope.md R8, GK1). -/
def zext32 (b : Byte) : Word := b.setWidth 32

/-- What UXTB writes for the source value `v`: the low byte of the rotated value, zero-extended
(spec/40_uxtb.md R90). -/
def uxtbResult (rotate : Rotation) (v : Word) : Word :=
  zext32 ((ror32 v (rotationAmount rotate)).extractLsb' 0 8)

end Sys2Proof.Machine
end

