-- ==== Sys2Proof/Machine/Ops.lean ====
section
/-! DEFINITION. The named operations over registers, the program counter and memory, and the fetch
(spec/10_state.md, spec/20_memory.md). The spec describes no exception entry and no exception return
(spec/60_exceptions.md R115, R116), so there is no such operation. -/

namespace Sys2Proof.Machine

/-! ### Registers and pc -/

/-- `R[i]` (spec/00_scope.md R8). -/
def State.reg (s : State) (i : RegNum) : Word := s.regs[i]

/-- `R[i] <- v` (spec/00_scope.md R8). -/
def State.setReg (s : State) (i : RegNum) (v : Word) : State :=
  { s with regs := s.regs.set i v }

/-- `pc <- pc + len` (spec/10_state.md R24). -/
def State.advance (s : State) (len : Nat) : State :=
  { s with pc := s.pc + BitVec.ofNat 32 len }

/-- `uint(pc) + len >= 2^32`: the advance would leave the address space (spec/10_state.md R24). -/
def State.pcWraps (s : State) (len : Nat) : Bool := Config.addressLimit ≤ s.pc.toNat + len

/-- pc is a multiple of 4 in A32 and of 2 in T32 (spec/20_memory.md R44). -/
def State.aligned (s : State) : Bool :=
  match s.iset with
  | .a32 => s.pc.extractLsb' 0 2 == 0#2
  | .t32 => s.pc.extractLsb' 0 1 == 0#1

/-! ### Memory -/

/-- `Mem(a)`: the byte at address `a`, none where it is not mapped (spec/20_memory.md R40). -/
def Memory.read : Memory → Nat → Option Byte
  | [], _ => none
  | (k, b) :: rest, a => if a = k then some b else Memory.read rest a

/-- The memory that maps `a` to `b` and is otherwise `m`, addresses kept in rising order. -/
def Memory.insert : Memory → Nat → Byte → Memory
  | [], a, b => [(a, b)]
  | (k, c) :: rest, a, b =>
    if a < k then (a, b) :: (k, c) :: rest
    else if a = k then (a, b) :: rest
    else (k, c) :: Memory.insert rest a b

/-- Write of one byte; there is no address from 2^32 on, so a write there changes nothing
(spec/20_memory.md R41). No instruction writes memory (R40): this serves to place a program. -/
def Memory.write (m : Memory) (a : Nat) (b : Byte) : Memory :=
  if a < Config.addressLimit then m.insert a b else m

/-- `MemWrite` of the bytes of a value, lowest address first (spec/00_scope.md R8). -/
def Memory.writeBytes (m : Memory) (a : Nat) : List Byte → Memory
  | [] => m
  | b :: rest => Memory.writeBytes (m.write a b) (a + 1) rest

/-- The bytes at addresses `a` to `a + n - 1`, if all of them are mapped; addresses are added as
integers (spec/20_memory.md R42). -/
def Memory.readBytes (m : Memory) (a : Nat) : Nat → Option (List Byte)
  | 0 => some []
  | n + 1 =>
    match m.read a, Memory.readBytes m (a + 1) n with
    | some b, some rest => some (b :: rest)
    | _, _ => none

/-- `MemRead(addr, 2)` (spec/20_memory.md R42). -/
def Memory.read16 (m : Memory) (addr : Nat) : Option Half :=
  if addr + 2 ≤ Config.addressLimit then
    match m.readBytes addr 2 with
    | some [b0, b1] => some (le16 b0 b1)
    | _ => none
  else none

/-- `MemRead(addr, 4)` (spec/20_memory.md R42). -/
def Memory.read32 (m : Memory) (addr : Nat) : Option Word :=
  if addr + 4 ≤ Config.addressLimit then
    match m.readBytes addr 4 with
    | some [b0, b1, b2, b3] => some (le32 b0 b1 b2 b3)
    | _ => none
  else none

/-! ### Fetch (spec/20_memory.md R43) -/

/-- The A32 fetch: one 4-byte read. -/
def fetchA32 (s : State) : Except Refusal RawInstr :=
  if s.aligned then
    match s.mem.read32 s.pc.toNat with
    | some w => .ok (.word w)
    | none => .error .fetchUnmapped
  else .error .fetchMisaligned

/-- The T32 fetch: `hw1`, and `hw2` at `pc + 2` (as an integer) when `hw1` says 32 bits. -/
def fetchT32 (s : State) : Except Refusal RawInstr :=
  if s.aligned then
    if s.itstate = 0#8 then
      match s.mem.read16 s.pc.toNat with
      | some hw1 =>
        if isWide hw1 then
          match s.mem.read16 (s.pc.toNat + 2) with
          | some hw2 => .ok (.word (hw1 ++ hw2))
          | none => .error .fetchUnmapped
        else .ok (.half hw1)
      | none => .error .fetchUnmapped
    else .error .inITBlock
  else .error .fetchMisaligned

/-- The fetch of the instruction at pc, in the instruction set in use (R43). -/
def fetch (s : State) : Except Refusal RawInstr :=
  match s.iset with
  | .a32 => fetchA32 s
  | .t32 => fetchT32 s

/-- The decoder's refusals as refusals of a step (spec/60_exceptions.md R113). `truncated` is no
answer of `decode`; a byte list that ends early is a byte that is not there. -/
def refusalOfDecode : DecodeError → Refusal
  | .notInScope => .notInScope
  | .unpredictableSBZ => .unpredictableSBZ
  | .unpredictableR15 => .unpredictableR15
  | .truncated => .fetchUnmapped

/-- Fetch and decode: the instruction at pc, or the first refusal of spec/60_exceptions.md R114. -/
def fetchDecode (s : State) : Except Refusal Instr :=
  match fetch s with
  | .error r => .error r
  | .ok raw =>
    match decode s.iset raw with
    | .ok i => .ok i
    | .error e => .error (refusalOfDecode e)

/-! ### Placing one instruction -/

/-- pc rounded down to the alignment the instruction set asks (spec/20_memory.md R44). No step rounds
pc: this serves to place an instruction where the fetch accepts it (log 3). -/
def alignDown : ISet → Word → Word
  | .a32, a => a &&& 0xFFFFFFFC#32
  | .t32, a => a &&& 0xFFFFFFFE#32

/-- `s` with the bytes of one instruction of `iset` stored at pc and the fetch's other conditions met:
the instruction set selected, pc aligned for it, itstate 0 for T32 (spec/20_memory.md R43; log 3). -/
def State.placeInstr (s : State) (iset : ISet) (bytes : List Byte) : State :=
  { s with
    iset := iset
    pc := alignDown iset s.pc
    itstate := match iset with
      | .a32 => s.itstate
      | .t32 => 0#8
    mem := s.mem.writeBytes (alignDown iset s.pc).toNat bytes }

end Sys2Proof.Machine
end

