-- ==== Sys2Proof/Machine/Extend.lean ====
section
/-! DEFINITION. The family of the extend instructions: UXTB in its three encodings
(spec/40_uxtb.md). -/

namespace Sys2Proof.Machine

/-- The operation all three encodings share (spec/40_uxtb.md R90): the wrap test before anything is
written, then the register write if the condition passed, then the advance of pc either way. -/
def uxtb (len : Nat) (passed : Bool) (d m : RegNum) (rotate : Rotation) (s : State) : StepOutcome :=
  if s.pcWraps len then .refused .pcWrap
  else if passed then .next ((s.setReg d (uxtbResult rotate (s.reg m))).advance len)
  else .next (s.advance len)

/-- UXTB, encoding A1 (spec/40_uxtb.md R92). The decoder has already refused register 15; a term that
names it is refused here too, before the condition (R92, D12; log 6). -/
def execUxtbA1 (cond : Cond) (rd : RegNum) (rotate : Rotation) (rm : RegNum) (s : State) :
    StepOutcome :=
  if namesR15 rd rm then .refused .unpredictableR15
  else uxtb 4 (conditionPassed cond s.cpsr) rd rm rotate s

/-- UXTB, encoding T1 (spec/40_uxtb.md R93): rotation 0, registers 0 to 7. With itstate 0 the current
condition is AL (spec/30_encoding.md R69); otherwise it is refused (spec/10_state.md R28; log 5). -/
def execUxtbT1 (rm rd : LowReg) (s : State) : StepOutcome :=
  if s.itstate = 0#8 then
    uxtb 2 (conditionPassed .al s.cpsr) (regOfLow rd) (regOfLow rm) .ror0 s
  else .refused .inITBlock

/-- UXTB, encoding T2 (spec/40_uxtb.md R94); itstate and register 15 as in T1 and A1, in the order of
spec/60_exceptions.md R114. -/
def execUxtbT2 (rd : RegNum) (rotate : Rotation) (rm : RegNum) (s : State) : StepOutcome :=
  if s.itstate = 0#8 then
    if namesR15 rd rm then .refused .unpredictableR15
    else uxtb 4 (conditionPassed .al s.cpsr) rd rm rotate s
  else .refused .inITBlock

end Sys2Proof.Machine
end

