-- ==== Sys2Proof/Machine/Dispatch.lean ====
section
/-! DEFINITION. The one dispatch from an instruction to its meaning. -/

namespace Sys2Proof.Machine

def exec (i : Instr) (s : State) : Host.Outcome State Fault Refusal :=
  match i with
  | .uxtbA1 cond rd rotate rm => Sys2Proof.Machine.execUxtbA1 cond rd rotate rm s
  | .uxtbT1 rm rd => Sys2Proof.Machine.execUxtbT1 rm rd s
  | .uxtbT2 rd rotate rm => Sys2Proof.Machine.execUxtbT2 rd rotate rm s

end Sys2Proof.Machine
end

