-- ==== Sys2Proof/Machine/Step.lean ====
section
/-! DEFINITION. One step of the machine (spec/60_exceptions.md R112). -/

namespace Sys2Proof.Machine

/-- Fetch and decode the instruction at pc, then execute it. -/
def step (s : State) : Host.Outcome State Fault Refusal :=
  match fetchDecode s with
  | .ok i => exec i s
  | .error r => .refused r

/-- `s` with the instruction of a word of spec/opcode_table.json stored where `step` fetches, and the
fetch's conditions met (log 3). -/
def State.withFetchWord (s : State) (nbits w : Nat) : State :=
  s.placeInstr (tableISet nbits w) (tableBytes nbits w)

end Sys2Proof.Machine
end

