-- ==== Sys2Proof/Machine/Assembly.lean ====
section
/-! DEFINITION. The assembler forms of UXTB (spec/30_encoding.md R72 to R79, D20). They serve to read
and print listings and carry no meaning of their own (spec/00_scope.md R14). -/

namespace Sys2Proof.Machine

/-- `<q>`: `.N` (narrow) or `.W` (wide) (R77). -/
inductive Qualifier where
  | narrow
  | wide
deriving DecidableEq, Repr

/-- One line of the form `UXTB(<c>)(<q>) (<Rd>,) <Rm> (, ROR #<amount>)`, the bracketed parts optional
(R73, R74, R75). The amount is 8, 16 or 24; 0 is written by leaving it out (R77). -/
structure AsmLine where
  cond : Option Cond
  qualifier : Option Qualifier
  rd : Option RegNum
  rm : RegNum
  amount : Option Nat
deriving DecidableEq, Repr

/-! ### Printing (R79) -/

/-- The `<amount>` of a rotation (R77). -/
def amountOfRotation : Rotation → Option Nat
  | .ror0 => none
  | .ror8 => some 8
  | .ror16 => some 16
  | .ror24 => some 24

/-- The operands fit T1: both registers in 0 to 7 and no rotation (R75, R76). -/
def fitsT1 (rd rm : RegNum) (rotate : Rotation) : Bool :=
  rd.val < 8 && rm.val < 8 && rotate == .ror0

/-- The line a decoded instruction prints as (R79). `<Rd>` is always printed (log 22). -/
def asmOfInstr : Instr → AsmLine
  | .uxtbA1 c rd rotate rm =>
    { cond := if c = .al then none else some c
      qualifier := none
      rd := some rd
      rm := rm
      amount := amountOfRotation rotate }
  | .uxtbT1 rm rd =>
    { cond := none, qualifier := none, rd := some (regOfLow rd), rm := regOfLow rm, amount := none }
  | .uxtbT2 rd rotate rm =>
    { cond := none
      qualifier := if fitsT1 rd rm rotate then some .wide else none
      rd := some rd
      rm := rm
      amount := amountOfRotation rotate }

/-- The suffix of a condition (R69). -/
def condSuffix : Cond → String
  | .eq => "EQ"
  | .ne => "NE"
  | .cs => "CS"
  | .cc => "CC"
  | .mi => "MI"
  | .pl => "PL"
  | .vs => "VS"
  | .vc => "VC"
  | .hi => "HI"
  | .ls => "LS"
  | .ge => "GE"
  | .lt => "LT"
  | .gt => "GT"
  | .le => "LE"
  | .al => "AL"

/-- The condition a suffix names, HS and LO being CS and CC (R69). -/
def condOfSuffix (s : String) : Option Cond :=
  if s = "HS" then some .cs
  else if s = "LO" then some .cc
  else [Cond.eq, .ne, .cs, .cc, .mi, .pl, .vs, .vc, .hi, .ls, .ge, .lt, .gt, .le, .al].find?
    (fun c => condSuffix c = s)

/-- The name of a register, R0 to R15 (R77). -/
def regName (r : RegNum) : String :=
  match r.val with
  | 0 => "R0"
  | 1 => "R1"
  | 2 => "R2"
  | 3 => "R3"
  | 4 => "R4"
  | 5 => "R5"
  | 6 => "R6"
  | 7 => "R7"
  | 8 => "R8"
  | 9 => "R9"
  | 10 => "R10"
  | 11 => "R11"
  | 12 => "R12"
  | 13 => "R13"
  | 14 => "R14"
  | _ => "R15"

/-- The register a name stands for, the aliases SP, LR and PC among them (spec/10_state.md R22). -/
def regOfName (s : String) : Option RegNum :=
  if s = "SP" then some 13
  else if s = "LR" then some 14
  else if s = "PC" then some 15
  else (List.finRange 16).find? (fun r => regName r = s)

/-- The text of a line (R73 to R75). -/
def asmText (l : AsmLine) : String :=
  "UXTB"
    ++ (match l.cond with
      | none => ""
      | some c => condSuffix c)
    ++ (match l.qualifier with
      | none => ""
      | some .narrow => ".N"
      | some .wide => ".W")
    ++ " "
    ++ (match l.rd with
      | none => ""
      | some rd => regName rd ++ ", ")
    ++ regName l.rm
    ++ (match l.amount with
      | none => ""
      | some a => ", ROR #" ++ toString a)

/-! ### Assembling (R73 to R77) -/

/-- The rotation an `<amount>` asks for; no other amount can be written (R77). -/
def rotationOfAmount : Option Nat → Option Rotation
  | none => some .ror0
  | some 8 => some .ror8
  | some 16 => some .ror16
  | some 24 => some .ror24
  | some _ => none

/-- A register as a 3-bit field, if it is one of R0 to R7. -/
def lowOfReg (r : RegNum) : Option LowReg := if h : r.val < 8 then some ⟨r.val, h⟩ else none

/-- The 16-bit form, if the operands can be represented in it (R75, R76). -/
def assembleT1 (rd rm : RegNum) (rotate : Rotation) : Option Instr :=
  match lowOfReg rm, lowOfReg rd, rotate with
  | some rm', some rd', .ror0 => some (.uxtbT1 rm' rd')
  | _, _, _ => none

/-- The instruction a line stands for (R76, R77). An omitted condition is AL and an omitted `<Rd>` is
`<Rm>`. In T32 a condition other than AL is legal only in an IT block, which is out of scope; with no
qualifier T1 is preferred where it fits; `.N` demands the 16-bit and `.W` the 32-bit encoding. A32 has
no 16-bit encoding, and a line that names register 15 is not assembled (log 22). -/
def assemble (iset : ISet) (l : AsmLine) : Option Instr :=
  let c := l.cond.getD .al
  let rd := l.rd.getD l.rm
  if namesR15 rd l.rm then none
  else
    match rotationOfAmount l.amount with
    | none => none
    | some rotate =>
      match iset with
      | .a32 => if l.qualifier = some .narrow then none else some (.uxtbA1 c rd rotate l.rm)
      | .t32 =>
        if c = .al then
          match l.qualifier with
          | some .narrow => assembleT1 rd l.rm rotate
          | some .wide => some (.uxtbT2 rd rotate l.rm)
          | none => (assembleT1 rd l.rm rotate).or (some (.uxtbT2 rd rotate l.rm))
        else none

end Sys2Proof.Machine
end

