-- ==== Sys2Proof/Machine/Run.lean ====
section
/-! DEFINITION. Runs: a run starts from a launch state and is over exactly when pc is `end_pc` before a
fetch (spec/70_reset_and_hazards.md R131, R133). `end_pc` is an argument, not state (spec/00_scope.md
R13). -/

namespace Sys2Proof.Machine

/-- How far a run has come. -/
inductive RunResult where
  /-- pc is `end_pc` before a fetch: the run is over and this state is final (R133). -/
  | final (s : State)
  /-- A step was refused: no successor. The state is the one before the refused instruction
  (spec/60_exceptions.md R112, R115). -/
  | refused (s : State) (r : Refusal)
  /-- Neither yet, after the steps allowed. -/
  | running (s : State)
deriving DecidableEq, Repr

/-- The run from `s` to `endPc`, of at most `fuel` steps. Nothing at `endPc` is fetched (R133). -/
def runTo (endPc : Word) : Nat → State → RunResult
  | 0, s => if s.pc = endPc then .final s else .running s
  | fuel + 1, s =>
    if s.pc = endPc then .final s
    else
      match step s with
      | .next s' => runTo endPc fuel s'
      | .refused r => .refused s r
      | .fault f => nomatch f

/-- The state a run result speaks of. -/
def RunResult.state : RunResult → State
  | .final s => s
  | .refused s _ => s
  | .running s => s

end Sys2Proof.Machine
end

