-- ==== Sys2Proof/Safety.lean ====
section
/-! DEFINITION. The terms in which statements speak: outcomes carried along a change of state, what an
instruction reads and writes (spec/10_state.md R30), the invariant of the machine, and the launch
premises under which a run is safe (spec/70_reset_and_hazards.md R132). -/

namespace Sys2Proof.Machine

/-- The outcome with its next state changed by `f`; a stop stays the stop it is. -/
def mapNext (f : State → State) : StepOutcome → StepOutcome
  | .next s => .next (f s)
  | .fault r => .fault r
  | .refused r => .refused r

/-! ### What an instruction names -/

/-- The destination register `d` (spec/30_encoding.md R64). -/
def destReg : Instr → RegNum
  | .uxtbA1 _ rd _ _ => rd
  | .uxtbT1 _ rd => regOfLow rd
  | .uxtbT2 rd _ _ => rd

/-- The source register `m` (spec/30_encoding.md R64). -/
def srcReg : Instr → RegNum
  | .uxtbA1 _ _ _ rm => rm
  | .uxtbT1 rm _ => regOfLow rm
  | .uxtbT2 _ _ rm => rm

/-- The condition an instruction is executed under: the `cond` field of A1, AL for T1 and T2
(spec/30_encoding.md R69). -/
def instrCond : Instr → Cond
  | .uxtbA1 c _ _ _ => c
  | .uxtbT1 _ _ => .al
  | .uxtbT2 _ _ _ => .al

/-- The rotation in bits (spec/30_encoding.md R64: 0 for T1). -/
def instrRotation : Instr → Nat
  | .uxtbA1 _ _ rotate _ => rotationAmount rotate
  | .uxtbT1 _ _ => 0
  | .uxtbT2 _ rotate _ => rotationAmount rotate

/-- The byte of `v` that a rotation by `rotation` bits brings to the low end, zero-extended: the closed
form of spec/40_uxtb.md R91, as an integer quotient and remainder. -/
def selectedByte (rotation : Nat) (v : Word) : Word := BitVec.ofNat 32 (v.toNat / 2 ^ rotation % 256)

/-! ### The patterns, field by field, and the grounds of a refusal in their order -/

/-- The fixed fields of R61, R62 or R63 hold, should-be-zero bits left free; for A1 `cond` is not 1111
(spec/30_encoding.md R61 to R63, R68). -/
def uxtbPattern : ISet → RawInstr → Prop
  | .a32, .word w =>
    w.extractLsb' 28 4 ≠ 0b1111#4 ∧ w.extractLsb' 16 12 = 0b011011101111#12
      ∧ w.extractLsb' 4 4 = 0b0111#4
  | .a32, .half _ => False
  | .t32, .half h => h.extractLsb' 6 10 = 0b1011001011#10
  | .t32, .word w => w.extractLsb' 12 20 = 0b11111010010111111111#20 ∧ w.extractLsb' 7 1 = 0b1#1

/-- A should-be-zero bit is 1: bits 9 and 8 of A1, bit 6 of T2 (spec/30_encoding.md R67). -/
def sbzSet : ISet → RawInstr → Prop
  | .a32, .word w => w.extractLsb' 8 2 ≠ 0b00#2
  | .t32, .word w => w.extractLsb' 6 1 ≠ 0b0#1
  | _, .half _ => False

/-- The `Rd` or `Rm` field of A1 or T2 is 1111 (spec/30_encoding.md R61, R63, R66 step 4). -/
def r15Fields : ISet → RawInstr → Prop
  | .a32, .word w => w.extractLsb' 12 4 = 0b1111#4 ∨ w.extractLsb' 0 4 = 0b1111#4
  | .t32, .word w => w.extractLsb' 8 4 = 0b1111#4 ∨ w.extractLsb' 0 4 = 0b1111#4
  | _, .half _ => False

/-- pc is not aligned for the instruction set (spec/20_memory.md R44). -/
def misaligned (s : State) : Prop :=
  match s.iset with
  | .a32 => s.pc.toNat % 4 ≠ 0
  | .t32 => s.pc.toNat % 2 ≠ 0

/-- A byte of the instruction at pc has no value (spec/20_memory.md R42, R43): the word in A32, the
first halfword in T32, or the second one when the first says 32 bits. -/
def unmappedAtPc (s : State) : Prop :=
  match s.iset with
  | .a32 => s.mem.read32 s.pc.toNat = none
  | .t32 => s.mem.read16 s.pc.toNat = none
    ∨ ∃ hw1, s.mem.read16 s.pc.toNat = some hw1 ∧ 29 ≤ hw1.toNat / 2048
      ∧ s.mem.read16 (s.pc.toNat + 2) = none

/-- The bits of the instruction at pc (spec/20_memory.md R43). -/
def instrBitsAtPc (s : State) (raw : RawInstr) : Prop :=
  match s.iset, raw with
  | .a32, .word w => s.mem.read32 s.pc.toNat = some w
  | .a32, .half _ => False
  | .t32, .half h => s.mem.read16 s.pc.toNat = some h ∧ h.toNat / 2048 < 29
  | .t32, .word w => s.mem.read16 s.pc.toNat = some (w.extractLsb' 16 16)
    ∧ 29 ≤ (w.extractLsb' 16 16).toNat / 2048
    ∧ s.mem.read16 (s.pc.toNat + 2) = some (w.extractLsb' 0 16)

/-- The fetch goes through: pc aligned, itstate 0 in T32, and these are the bits at pc. -/
def fetchable (s : State) (raw : RawInstr) : Prop :=
  ¬ misaligned s ∧ (s.iset = .t32 → s.itstate = 0#8) ∧ instrBitsAtPc s raw

/-- The refusal is the first ground that holds, in the order of spec/60_exceptions.md R114. -/
def firstGround (s : State) : Refusal → Prop
  | .fetchMisaligned => misaligned s
  | .inITBlock => ¬ misaligned s ∧ s.iset = .t32 ∧ s.itstate ≠ 0#8
  | .fetchUnmapped => ¬ misaligned s ∧ (s.iset = .t32 → s.itstate = 0#8) ∧ unmappedAtPc s
  | .notInScope => ∃ raw, fetchable s raw ∧ ¬ uxtbPattern s.iset raw
  | .unpredictableSBZ => ∃ raw, fetchable s raw ∧ uxtbPattern s.iset raw ∧ sbzSet s.iset raw
  | .unpredictableR15 => ∃ raw, fetchable s raw ∧ uxtbPattern s.iset raw ∧ ¬ sbzSet s.iset raw
      ∧ r15Fields s.iset raw
  | .pcWrap => ∃ raw, fetchable s raw ∧ uxtbPattern s.iset raw ∧ ¬ sbzSet s.iset raw
      ∧ ¬ r15Fields s.iset raw ∧ 4294967296 ≤ s.pc.toNat + raw.len
  | _ => False

/-! ### When an instruction executes -/

/-- The instruction executes normally: a defined operand combination (spec/10_state.md R21), itstate 0
for a T32 instruction (R28), and no advance past the top of the address space (R24). -/
def Runnable (i : Instr) (s : State) : Prop :=
  i.wf = true ∧ (i.iset = .t32 → s.itstate = 0#8) ∧ s.pc.toNat + i.len < 4294967296

/-! ### The invariant -/

/-- Memory is in its canonical form, pc is aligned for the instruction set in use
(spec/20_memory.md R44), and itstate is 0 in T32 (spec/10_state.md R28). -/
def Inv (s : State) : Prop :=
  Memory.wf s.mem
    ∧ (s.iset = .a32 → s.pc.toNat % 4 = 0)
    ∧ (s.iset = .t32 → s.pc.toNat % 2 = 0 ∧ s.itstate = 0#8)

/-! ### Launch premises -/

/-- The program text `is` lies in memory from address `a` on, one instruction's bytes after the other
(spec/70_reset_and_hazards.md R132, P3). DESIGN CHOICE, safe (log 23): a text is a list of well-formed
UXTB encodings; R132 does not say whether it may also hold a word that is refused. -/
def TextAt (m : Memory) (iset : ISet) : Nat → List Instr → Prop
  | _, [] => True
  | a, i :: rest =>
    i.wf = true ∧ i.iset = iset ∧ m.readBytes a i.len = some (layout iset (encode i))
      ∧ TextAt m iset (a + i.len) rest

/-- The length of a program text in bytes. -/
def textLength : List Instr → Nat
  | [] => 0
  | i :: rest => i.len + textLength rest

/-- The premises P1, P2 and P3 of spec/70_reset_and_hazards.md R132 for the text `is`, read as log 23
says (a text of well-formed UXTB encodings alone, DESIGN CHOICE): pc aligned,
itstate 0 in T32, the text mapped from pc up to `endPc`, which lies on its last boundary. (P4 to P6 are
about agents the model does not have, log 16, log 17.) -/
def LaunchOk (s : State) (is : List Instr) (endPc : Word) : Prop :=
  s.aligned = true ∧ (s.iset = .t32 → s.itstate = 0#8)
    ∧ TextAt s.mem s.iset s.pc.toNat is ∧ s.pc.toNat + textLength is = endPc.toNat

end Sys2Proof.Machine
end

