-- ==== Sys2Proof/Certificates/Slice0/Obligations.lean ====
section
/-! DEFINITION. The statements for the provers, each with the rule of spec/ it formalises. Many rules
of this spec are marked as the spec's own decision (`D<n>` of spec/92_eei_decisions.md) or as general
knowledge (`GK<n>` of spec/93_implementation_defined.md); a docstring says so where it is the case. -/

open Sys2Proof Sys2Proof.Machine

/-! ### Encoding -/

/-- Decode of encode is the identity on every well-formed instruction (R61 to R66). -/
def Obligations.DecodeOfEncode : Prop :=
  ∀ i : Instr, i.wf = true → decode i.iset (encode i) = .ok i

/-- Whatever the decoder accepts is the encoding of the instruction it answers, which is well formed
and of the instruction set in use: no bit of the word is ignored (R61 to R67). -/
def Obligations.EncodeOfDecode : Prop :=
  ∀ (iset : ISet) (raw : RawInstr) (i : Instr), decode iset raw = .ok i →
    i.wf = true ∧ i.iset = iset ∧ encode i = raw

/-- The same round trip through bytes in memory order, with anything after the instruction left over
(R42 byte order, R43 halfword order and length). -/
def Obligations.DecodeOfBytes : Prop :=
  ∀ (i : Instr) (rest : List Byte), i.wf = true →
    decodeBytes i.iset (layout i.iset (encode i) ++ rest) = .ok (i, rest)

/-- R64: what the Decode fragments compute from the fields, and their test on register 15. -/
def Obligations.DecodeFragments : Prop :=
  (∀ (w : Word) (i : Instr), decode .a32 (.word w) = .ok i →
    (destReg i).val = (w.extractLsb' 12 4).toNat ∧ (srcReg i).val = (w.extractLsb' 0 4).toNat
      ∧ instrRotation i = (w.extractLsb' 10 2 ++ 0b000#3).toNat
      ∧ instrRotation i = 8 * (w.extractLsb' 10 2).toNat ∧ instrRotation i ∈ [0, 8, 16, 24])
  ∧ (∀ (h : Half) (i : Instr), decode .t32 (.half h) = .ok i →
    (destReg i).val = (h.extractLsb' 0 3).toNat ∧ (srcReg i).val = (h.extractLsb' 3 3).toNat
      ∧ instrRotation i = 0)
  ∧ (∀ (w : Word) (i : Instr), decode .t32 (.word w) = .ok i →
    (destReg i).val = (w.extractLsb' 8 4).toNat ∧ (srcReg i).val = (w.extractLsb' 0 4).toNat
      ∧ instrRotation i = (w.extractLsb' 4 2 ++ 0b000#3).toNat
      ∧ instrRotation i = 8 * (w.extractLsb' 4 2).toNat ∧ instrRotation i ∈ [0, 8, 16, 24])
  ∧ ∀ (iset : ISet) (w : Word), uxtbPattern iset (.word w) → ¬ sbzSet iset (.word w) →
    (r15Fields iset (.word w) ↔ decode iset (.word w) = .error .unpredictableR15)

/-- The words of the worked examples of R92 to R94 and of the decoder-field table of
spec/95_test_vectors.md decode to the instructions they stand for. -/
def Obligations.ExampleWordsDecode : Prop :=
  decode .a32 (.word 0xE6EF2473#32) = .ok (.uxtbA1 .al 2 .ror8 3)
  ∧ decode .a32 (.word 0xE6EFEC7C#32) = .ok (.uxtbA1 .al 14 .ror24 12)
  ∧ decode .t32 (.half 0xB2C8#16) = .ok (.uxtbT1 1 0)
  ∧ decode .t32 (.half 0xB2EB#16) = .ok (.uxtbT1 5 3)
  ∧ decode .t32 (.word 0xFA5FF899#32) = .ok (.uxtbT2 8 .ror8 9)
  ∧ decode .t32 (.word 0xFA5FFCBE#32) = .ok (.uxtbT2 12 .ror24 14)

/-- R67: a word that matches but for a should-be-zero bit is refused as UnpredictableSBZ, and the
encoder emits these bits as 0 (the spec's decision D11; the meaning of `(0)` is GK11). -/
def Obligations.ShouldBeZeroBits : Prop :=
  (∀ (s : State) (raw : RawInstr), fetchable s raw → uxtbPattern s.iset raw → sbzSet s.iset raw →
    step s = .refused .unpredictableSBZ)
  ∧ ∀ i : Instr, ¬ sbzSet i.iset (encode i)

/-- R68: a fetched instruction is refused as NotInScope exactly when it has none of the three patterns
(the spec's decision D13). -/
def Obligations.NotInScopeExactly : Prop :=
  ∀ (s : State) (raw : RawInstr), fetchable s raw →
    (step s = .refused .notInScope ↔ ¬ uxtbPattern s.iset raw)

/-- A well-formed instruction prints as a line that assembles back to it (R73 to R79; the conventions
are the spec's decision D20, and that `<Rd>` is always printed is the model's choice, log 22). -/
def Obligations.PrintedLineAssemblesBack : Prop :=
  ∀ i : Instr, i.wf = true → assemble i.iset (asmOfInstr i) = some i

/-- R75, R76: without a qualifier an unconditional T32 line is T1 where both registers are in 0 to 7
and no rotation is asked, and T2 otherwise; `.W` is always T2, and `.N` is nothing where T1 does not
fit (GK9, D20). -/
def Obligations.AssemblerSelectsEncoding : Prop :=
  ∀ (rd rm : RegNum) (rotate : Rotation), rd ≠ 15 → rm ≠ 15 →
    let line := fun q : Option Qualifier =>
      ({ cond := none, qualifier := q, rd := some rd, rm := rm, amount := amountOfRotation rotate } : AsmLine)
    assemble .t32 (line (some .wide)) = some (.uxtbT2 rd rotate rm)
    ∧ (rd.val < 8 ∧ rm.val < 8 ∧ rotate = .ror0 →
        ∃ (rd' rm' : LowReg), rd'.val = rd.val ∧ rm'.val = rm.val
          ∧ assemble .t32 (line none) = some (.uxtbT1 rm' rd')
          ∧ assemble .t32 (line (some .narrow)) = some (.uxtbT1 rm' rd'))
    ∧ (¬ (rd.val < 8 ∧ rm.val < 8 ∧ rotate = .ror0) →
        assemble .t32 (line none) = some (.uxtbT2 rd rotate rm)
          ∧ assemble .t32 (line (some .narrow)) = none)

/-! ### Memory and fetch -/

/-- R42: `MemRead` of 2 and 4 bytes has a value exactly when all its bytes are mapped and it does not
run past the top; bits 8i+7:8i of the value are the byte at `addr + i` (integers, no wrap); and the
step that asked for a read without a value is refused as FetchUnmapped (the spec's decision D6). -/
def Obligations.MemReadLittleEndian : Prop :=
  (∀ (m : Memory) (a : Nat) (v : Half), m.read16 a = some v ↔
    a + 2 ≤ 4294967296 ∧ ∀ k < 2, m.read (a + k) = some (v.extractLsb' (8 * k) 8))
  ∧ (∀ (m : Memory) (a : Nat) (v : Word), m.read32 a = some v ↔
    a + 4 ≤ 4294967296 ∧ ∀ k < 4, m.read (a + k) = some (v.extractLsb' (8 * k) 8))
  ∧ ∀ s : State, ¬ misaligned s → (s.iset = .t32 → s.itstate = 0#8) → unmappedAtPc s →
    step s = .refused .fetchUnmapped

/-- R43: the fetch gives the bits at pc (one word in A32; in T32 one halfword, or two when
`hw1[15:11]` is 11101, 11110 or 11111, the first in the high half) with their length, for every state
in which the alignment, the itstate and the bytes allow it. The length rule is GK6, D7. -/
def Obligations.FetchReadsInstruction : Prop :=
  (∀ (s : State) (raw : RawInstr), fetch s = .ok raw ↔ fetchable s raw)
  ∧ ∀ (s : State) (raw : RawInstr), fetchable s raw →
    (s.iset = .a32 → raw.len = 4)
    ∧ (s.iset = .t32 → ∀ hw1, s.mem.read16 s.pc.toNat = some hw1 →
        raw.len = if hw1.extractLsb' 11 5 ∈ [0b11101#5, 0b11110#5, 0b11111#5] then 4 else 2)

/-- R44: a step is refused as FetchMisaligned exactly when pc is not a multiple of 4 in A32 or of 2 in
T32, whatever the length of the T32 instruction (the spec's decision D8). -/
def Obligations.MisalignedExactly : Prop :=
  ∀ s : State, step s = .refused .fetchMisaligned ↔
    (s.iset = .a32 ∧ s.pc.toNat % 4 ≠ 0) ∨ (s.iset = .t32 ∧ s.pc.toNat % 2 ≠ 0)

/-- R28: an aligned T32 step is refused as InITBlock exactly when itstate is not 0; no step changes
itstate; in A32 it is ignored (the spec's decision D4). -/
def Obligations.ItStateRule : Prop :=
  (∀ s : State, step s = .refused .inITBlock ↔
    s.iset = .t32 ∧ s.pc.toNat % 2 = 0 ∧ s.itstate ≠ 0#8)
  ∧ (∀ s t : State, step s = .next t → t.itstate = s.itstate)
  ∧ ∀ (s : State) (it : BitVec 8), s.iset = .a32 →
    step { s with itstate := it } = mapNext (fun t => { t with itstate := it }) (step s)

/-- When the bits at pc decode to an instruction, step is exec of it, with nothing added around it. -/
def Obligations.StepRunsDecoded : Prop :=
  ∀ (s : State) (raw : RawInstr) (i : Instr), fetch s = .ok raw → decode s.iset raw = .ok i →
    step s = exec i s

/-- When the bytes of a well-formed instruction lie at an aligned pc, step is exec of it. -/
def Obligations.StepRunsBytesAtPc : Prop :=
  ∀ (s : State) (i : Instr), i.wf = true → i.iset = s.iset → ¬ misaligned s →
    (s.iset = .t32 → s.itstate = 0#8) → s.pc.toNat + i.len ≤ 4294967296 →
    s.mem.readBytes s.pc.toNat i.len = some (layout s.iset (encode i)) →
    step s = exec i s

/-- R114: a step is refused for a reason exactly when that reason is the first ground that holds in the
order of the rule, and goes on exactly when none does (the spec's decision D12). -/
def Obligations.FirstGroundDecides : Prop :=
  (∀ (s : State) (r : Refusal), step s = .refused r ↔ firstGround s r)
  ∧ ∀ s : State, (∃ t, step s = .next t) ↔ ∀ r, ¬ firstGround s r

/-! ### What the instructions do -/

/-- R90: the operation of all three encodings, with the library's own rotation: PcWrap before anything
is written, the register write when the condition passes, the advance of pc either way. -/
def Obligations.UxtbOperation : Prop :=
  ∀ (i : Instr) (s : State), i.wf = true → (i.iset = .t32 → s.itstate = 0#8) →
    (4294967296 ≤ s.pc.toNat + i.len → exec i s = .refused .pcWrap)
    ∧ (s.pc.toNat + i.len < 4294967296 → conditionPassed (instrCond i) s.cpsr = true →
        exec i s = .next { s with
          regs := s.regs.set (destReg i)
            ((((s.reg (srcReg i)).rotateRight (instrRotation i)).extractLsb' 0 8).zeroExtend 32)
          pc := s.pc + BitVec.ofNat 32 i.len })
    ∧ (s.pc.toNat + i.len < 4294967296 → conditionPassed (instrCond i) s.cpsr = false →
        exec i s = .next { s with pc := s.pc + BitVec.ofNat 32 i.len })

/-- A1, condition passed: the selected byte goes to Rd and nothing else but pc changes (R91, R92). -/
def Obligations.UxtbA1Completes : Prop :=
  ∀ (c : Cond) (rd rm : RegNum) (rotate : Rotation) (s : State), rd ≠ 15 → rm ≠ 15 →
    s.pc.toNat + 4 < 4294967296 → conditionPassed c s.cpsr = true →
    exec (.uxtbA1 c rd rotate rm) s = .next { s with
      regs := s.regs.set rd (selectedByte (rotationAmount rotate) (s.reg rm))
      pc := s.pc + 4#32 }

/-- A1, condition failed: only pc changes (R92, R95; that the instruction is stepped over is GK16, D2). -/
def Obligations.UxtbA1ConditionFails : Prop :=
  ∀ (c : Cond) (rd rm : RegNum) (rotate : Rotation) (s : State), rd ≠ 15 → rm ≠ 15 →
    s.pc.toNat + 4 < 4294967296 → conditionPassed c s.cpsr = false →
    exec (.uxtbA1 c rd rotate rm) s = .next { s with pc := s.pc + 4#32 }

/-- T1: the low byte goes to Rd and nothing else but pc changes (R91, R93). -/
def Obligations.UxtbT1Completes : Prop :=
  ∀ (rm rd : LowReg) (s : State), s.itstate = 0#8 → s.pc.toNat + 2 < 4294967296 →
    exec (.uxtbT1 rm rd) s = .next { s with
      regs := s.regs.set rd.val (BitVec.ofNat 32 ((s.regs[rm.val]).toNat % 256))
      pc := s.pc + 2#32 }

/-- T2: the selected byte goes to Rd and nothing else but pc changes (R91, R94). -/
def Obligations.UxtbT2Completes : Prop :=
  ∀ (rd rm : RegNum) (rotate : Rotation) (s : State), rd ≠ 15 → rm ≠ 15 → s.itstate = 0#8 →
    s.pc.toNat + 4 < 4294967296 →
    exec (.uxtbT2 rd rotate rm) s = .next { s with
      regs := s.regs.set rd (selectedByte (rotationAmount rotate) (s.reg rm))
      pc := s.pc + 4#32 }

/-- R92 from the bits to the effect: an A32 word with the fixed bits of A1 is refused for cond 1111, a
should-be-zero bit or register 15, in this order and whatever the flags; otherwise it writes the byte
that `rotate` selects, if the condition passes, and advances by 4 (refusals: D11, D12, D13). -/
def Obligations.A1WordToEffect : Prop :=
  ∀ (s : State) (w : Word), s.iset = .a32 → s.pc.toNat % 4 = 0 →
    s.mem.read32 s.pc.toNat = some w → w.extractLsb' 16 12 = 0b011011101111#12 →
    w.extractLsb' 4 4 = 0b0111#4 →
    if w.extractLsb' 28 4 = 0b1111#4 then step s = .refused .notInScope
    else if w.extractLsb' 8 2 ≠ 0b00#2 then step s = .refused .unpredictableSBZ
    else if w.extractLsb' 12 4 = 0b1111#4 ∨ w.extractLsb' 0 4 = 0b1111#4 then
      step s = .refused .unpredictableR15
    else if 4294967296 ≤ s.pc.toNat + 4 then step s = .refused .pcWrap
    else ∃ c, c.field = w.extractLsb' 28 4 ∧ step s = .next (
      if conditionPassed c s.cpsr then { s with
        regs := s.regs.set (w.extractLsb' 12 4).toFin
          (((s.regs[(w.extractLsb' 0 4).toFin]).extractLsb' (8 * (w.extractLsb' 10 2).toNat) 8).zeroExtend 32)
        pc := s.pc + 4#32 }
      else { s with pc := s.pc + 4#32 })

/-- R93 from the bits to the effect: a T32 halfword with the fixed bits of T1 writes the low byte of
the register in bits 5:3 to the register in bits 2:0 and advances by 2; of its own it refuses nothing,
and the wrap past the top is refused as for every encoding. -/
def Obligations.T1HalfwordToEffect : Prop :=
  ∀ (s : State) (h : Half), s.iset = .t32 → s.pc.toNat % 2 = 0 → s.itstate = 0#8 →
    s.mem.read16 s.pc.toNat = some h → h.extractLsb' 6 10 = 0b1011001011#10 →
    if 4294967296 ≤ s.pc.toNat + 2 then step s = .refused .pcWrap
    else step s = .next { s with
      regs := s.regs.set (h.extractLsb' 0 3).toNat
        (((s.regs[(h.extractLsb' 3 3).toNat]'(by have := (h.extractLsb' 3 3).isLt; omega)).extractLsb' 0 8).zeroExtend 32)
        (by have := (h.extractLsb' 0 3).isLt; omega)
      pc := s.pc + 2#32 }

/-- R94 from the bits to the effect: two T32 halfwords with the fixed bits of T2 are refused for a
should-be-zero bit or register 15; otherwise they write the byte that `rotate` selects and advance by
4. Register 13 is an operand like any other (refusals: D11, D12). -/
def Obligations.T2HalfwordsToEffect : Prop :=
  ∀ (s : State) (hw2 : Half), s.iset = .t32 → s.pc.toNat % 2 = 0 → s.itstate = 0#8 →
    s.mem.read16 s.pc.toNat = some 0xFA5F#16 → s.mem.read16 (s.pc.toNat + 2) = some hw2 →
    hw2.extractLsb' 12 4 = 0b1111#4 → hw2.extractLsb' 7 1 = 0b1#1 →
    if hw2.extractLsb' 6 1 ≠ 0b0#1 then step s = .refused .unpredictableSBZ
    else if hw2.extractLsb' 8 4 = 0b1111#4 ∨ hw2.extractLsb' 0 4 = 0b1111#4 then
      step s = .refused .unpredictableR15
    else if 4294967296 ≤ s.pc.toNat + 4 then step s = .refused .pcWrap
    else step s = .next { s with
      regs := s.regs.set (hw2.extractLsb' 8 4).toFin
        (((s.regs[(hw2.extractLsb' 0 4).toFin]).extractLsb' (8 * (hw2.extractLsb' 4 2).toNat) 8).zeroExtend 32)
      pc := s.pc + 4#32 }

/-- A1 and T2 terms that name register 15 are refused whatever the flags (R92, R94, D12). That exec
refuses such a term, which the decoder never answers, is the model's inference, log 6. -/
def Obligations.Register15Refused : Prop :=
  ∀ (c : Cond) (rd rm : RegNum) (rotate : Rotation) (s : State), rd = 15 ∨ rm = 15 →
    exec (.uxtbA1 c rd rotate rm) s = .refused .unpredictableR15
    ∧ (s.itstate = 0#8 → exec (.uxtbT2 rd rotate rm) s = .refused .unpredictableR15)

/-- T1 and T2 are refused where itstate is not 0 (R28, D4). That exec refuses it again after the fetch
is the model's inference, log 5. -/
def Obligations.ItBlockRefused : Prop :=
  ∀ (rd rm : RegNum) (rd' rm' : LowReg) (rotate : Rotation) (s : State), s.itstate ≠ 0#8 →
    exec (.uxtbT1 rm' rd') s = .refused .inITBlock
    ∧ exec (.uxtbT2 rd rotate rm) s = .refused .inITBlock

/-- The frame of UXTB in all three encodings (A1, T1, T2, none of which stores): every register but the
destination, every register at all when the condition fails, the flags and DIT, iset, itstate and every
byte of memory are unchanged (R26, R30, R90). -/
def Obligations.UxtbFrame : Prop :=
  ∀ (i : Instr) (s t : State), exec i s = .next t →
    (∀ r, r ≠ destReg i → t.reg r = s.reg r)
    ∧ (conditionPassed (instrCond i) s.cpsr = false → t.regs = s.regs)
    ∧ t.cpsr = s.cpsr ∧ t.iset = s.iset ∧ t.itstate = s.itstate
    ∧ ∀ a, t.mem.read a = s.mem.read a

/-- R26: no UXTB writes a flag, and the flags are read by the condition check of A1 alone: T1 and T2 do
the same whatever the flags are, A1 the same for flags on which its condition agrees. -/
def Obligations.FlagsOnlyReadByCondition : Prop :=
  (∀ (i : Instr) (s t : State), exec i s = .next t → t.cpsr = s.cpsr)
  ∧ (∀ (i : Instr) (s : State) (f : Cpsr), i.iset = .t32 →
      exec i { s with cpsr := f } = mapNext (fun t => { t with cpsr := f }) (exec i s))
  ∧ ∀ (i : Instr) (s : State) (f : Cpsr),
      conditionPassed (instrCond i) f = conditionPassed (instrCond i) s.cpsr →
      exec i { s with cpsr := f } = mapNext (fun t => { t with cpsr := f }) (exec i s)

/-- R69, the condition table: the code of each condition and the flags under which it passes (the table
is GK3, adopted by D5). -/
def Obligations.ConditionTable : Prop :=
  ∀ f : Cpsr,
    (conditionPassed .eq f = true ↔ f.z = true) ∧ (conditionPassed .ne f = true ↔ f.z = false)
    ∧ (conditionPassed .cs f = true ↔ f.c = true) ∧ (conditionPassed .cc f = true ↔ f.c = false)
    ∧ (conditionPassed .mi f = true ↔ f.n = true) ∧ (conditionPassed .pl f = true ↔ f.n = false)
    ∧ (conditionPassed .vs f = true ↔ f.v = true) ∧ (conditionPassed .vc f = true ↔ f.v = false)
    ∧ (conditionPassed .hi f = true ↔ f.c = true ∧ f.z = false)
    ∧ (conditionPassed .ls f = true ↔ f.c = false ∨ f.z = true)
    ∧ (conditionPassed .ge f = true ↔ f.n = f.v) ∧ (conditionPassed .lt f = true ↔ f.n ≠ f.v)
    ∧ (conditionPassed .gt f = true ↔ f.z = false ∧ f.n = f.v)
    ∧ (conditionPassed .le f = true ↔ f.z = true ∨ f.n ≠ f.v)
    ∧ conditionPassed .al f = true
    ∧ [0#4, 1#4, 2#4, 3#4, 4#4, 5#4, 6#4, 7#4, 8#4, 9#4, 10#4, 11#4, 12#4, 13#4, 14#4, 15#4].map condOfField
      = [some .eq, some .ne, some .cs, some .cc, some .mi, some .pl, some .vs, some .vc, some .hi,
        some .ls, some .ge, some .lt, some .gt, some .le, some .al, none]

/-- The body of `ror32` (R8; supplied by the spec from general knowledge, GK2): the identity for 0, else
the low `n` bits moved to the top and the rest moved down. -/
def Obligations.RorBody : Prop :=
  ∀ v : Word, ror32 v 0 = v ∧ ∀ n, 0 < n → n < 32 →
    (ror32 v n).toNat = v.toNat % 2 ^ n * 2 ^ (32 - n) + v.toNat / 2 ^ n

/-- The four cases of R91 for a source `b3:b2:b1:b0` (an inference the spec marks as derived). -/
def Obligations.RotationSelectsByte : Prop :=
  ∀ b0 b1 b2 b3 : Byte,
    let v : Word := b3 ++ b2 ++ b1 ++ b0
    uxtbResult .ror0 v = 0#24 ++ b0 ∧ uxtbResult .ror8 v = 0#24 ++ b1
    ∧ uxtbResult .ror16 v = 0#24 ++ b2 ∧ uxtbResult .ror24 v = 0#24 ++ b3

/-- Whatever a UXTB writes is at most 255 (R91; S3 of spec/95_test_vectors.md): after a UXTB whose
condition passed, the destination holds the quotient and remainder of the closed form. -/
def Obligations.ResultIsOneByte : Prop :=
  ∀ (i : Instr) (s t : State), exec i s = .next t → conditionPassed (instrCond i) s.cpsr = true →
    (t.reg (destReg i)).toNat = (s.reg (srcReg i)).toNat / 2 ^ instrRotation i % 256
    ∧ (t.reg (destReg i)).toNat ≤ 255

/-- R95: UXTB of a UXTB result is the same value with rotation 0, and 0 with any other rotation. -/
def Obligations.ResultOfResult : Prop :=
  ∀ (i j : Instr) (s t u : State), exec i s = .next t → conditionPassed (instrCond i) s.cpsr = true →
    exec j t = .next u → conditionPassed (instrCond j) t.cpsr = true → srcReg j = destReg i →
    u.reg (destReg j) = if instrRotation j = 0 then t.reg (destReg i) else 0#32

/-- R135: with one register as source and destination, the byte written is that of its value before. -/
def Obligations.SourceReadFirst : Prop :=
  ∀ (i : Instr) (s : State), Runnable i s → srcReg i = destReg i →
    conditionPassed (instrCond i) s.cpsr = true →
    ∃ t, exec i s = .next t ∧ t.reg (destReg i) = selectedByte (instrRotation i) (s.reg (destReg i))

/-- R96: for the same operands the encodings write the same value to the same register; A1 and T2 do
the very same, T1 and T2 differ in pc alone (an inference the spec marks as derived). -/
def Obligations.EncodingsAgree : Prop :=
  (∀ (c : Cond) (rd rm : RegNum) (rotate : Rotation) (s : State), s.itstate = 0#8 →
    conditionPassed c s.cpsr = true →
    exec (.uxtbA1 c rd rotate rm) s = exec (.uxtbT2 rd rotate rm) s)
  ∧ ∀ (rm rd : LowReg) (s : State), s.itstate = 0#8 → s.pc.toNat + 4 < 4294967296 →
    ∃ t u, exec (.uxtbT1 rm rd) s = .next t ∧ exec (.uxtbT2 (regOfLow rd) .ror0 (regOfLow rm)) s = .next u
      ∧ u = { t with pc := t.pc + 2#32 }

/-! ### What a step can see and change -/

/-- R112: a step goes on with the state that the instruction fetched and decoded at pc gives when it is
executed, which differs at most in that instruction's R[d], not R[15], and pc; or it is refused, in which
case a run is marked refused there and no later step clears the mark (the spec's decision D14). There is
no third outcome. -/
def Obligations.StepNextOrRefused : Prop :=
  (∀ s : State,
    (∃ t i, step s = .next t ∧ fetchDecode s = .ok i ∧ exec i s = .next t ∧ destReg i ≠ 15
      ∧ t = { s with regs := s.regs.set (destReg i).val (t.reg (destReg i)) (destReg i).isLt, pc := t.pc })
    ∨ ∃ r, step s = .refused r)
  ∧ (∀ (endPc : Word) (n : Nat) (s : State) (r : Refusal), s.pc ≠ endPc → step s = .refused r →
      runTo endPc (n + 1) s = .refused s r)
  ∧ ∀ (endPc : Word) (n k : Nat) (s t : State) (r : Refusal), runTo endPc n s = .refused t r →
      runTo endPc (n + k) s = .refused t r

/-- R24: a next state's pc is that of the instruction plus its length, 4 for A1 and T2 and 2 for T1,
without wrapping, whether the condition passed or failed; where it would wrap the step is refused (the
spec's decisions D2, D9). -/
def Obligations.PcAdvancesByLength : Prop :=
  (∀ (s t : State) (i : Instr), fetchDecode s = .ok i → step s = .next t →
    t.pc.toNat = s.pc.toNat + i.len
    ∧ i.len = (match i with
      | .uxtbA1 .. => 4
      | .uxtbT1 .. => 2
      | .uxtbT2 .. => 4))
  ∧ ∀ (s : State) (i : Instr), fetchDecode s = .ok i →
    (4294967296 ≤ s.pc.toNat + i.len ↔ step s = .refused .pcWrap)

/-- R30: a step depends on nothing but pc, iset, itstate, the mapped bytes, the source register and, in
A32, the flags N, Z, C and V; two states that agree on these are refused alike, or go on with the same
pc and, where the condition passes, the same value in the same destination. -/
def Obligations.ReadSetDecidesStep : Prop :=
  ∀ s₁ s₂ : State, s₁.pc = s₂.pc → s₁.iset = s₂.iset → s₁.itstate = s₂.itstate →
    (∀ a, s₁.mem.read a = s₂.mem.read a) →
    (s₁.iset = .a32 → s₁.cpsr.n = s₂.cpsr.n ∧ s₁.cpsr.z = s₂.cpsr.z ∧ s₁.cpsr.c = s₂.cpsr.c
      ∧ s₁.cpsr.v = s₂.cpsr.v) →
    (∀ i, fetchDecode s₁ = .ok i → s₁.reg (srcReg i) = s₂.reg (srcReg i)) →
    (∀ r, step s₁ = .refused r ↔ step s₂ = .refused r)
    ∧ ∀ t₁, step s₁ = .next t₁ → ∃ t₂ i, step s₂ = .next t₂ ∧ fetchDecode s₁ = .ok i
      ∧ t₁.pc = t₂.pc
      ∧ if conditionPassed (instrCond i) s₁.cpsr then t₁.reg (destReg i) = t₂.reg (destReg i)
        else t₁.regs = s₁.regs ∧ t₂.regs = s₂.regs

/-- R21: no step reads or writes R[15] (an inference the spec marks as derived): changing it changes
nothing else, and no step changes it. -/
def Obligations.Register15Inert : Prop :=
  (∀ (s : State) (v : Word), step (s.setReg 15 v) = mapNext (fun t => t.setReg 15 v) (step s))
  ∧ ∀ s t : State, step s = .next t → t.reg 15 = s.reg 15

/-- CPSR.DIT is an inert bit: a step with another DIT does the same and keeps that DIT (R25, R136,
D19). -/
def Obligations.DitInert : Prop :=
  ∀ (s : State) (b : Bool),
    step { s with cpsr := { s.cpsr with dit := b } }
      = mapNext (fun t => { t with cpsr := { t.cpsr with dit := b } }) (step s)

/-- Every step keeps the invariant: memory canonical, pc aligned for the instruction set, itstate 0 in
T32 (R28, R40, R44). -/
def Obligations.StepKeepsInv : Prop :=
  ∀ s t : State, Inv s → step s = .next t → Inv t

/-- The invariant holds in the state after reset. The spec gives no reset value (R31): this is about the
model's choices, log 1 and log 2. -/
def Obligations.ResetHasInv : Prop := Inv State.reset

/-- The first step from reset with nothing placed is refused, since nothing is mapped: the model's
choice, log 2 and log 3; a program comes in with the launch state. -/
def Obligations.ResetHasNothingToFetch : Prop := step State.reset = .refused .fetchUnmapped

/-! ### Runs -/

/-- R40: memory is the same at every step of a run. -/
def Obligations.MemoryNeverChanges : Prop :=
  ∀ (endPc : Word) (n : Nat) (s : State), (runTo endPc n s).state.mem = s.mem

/-- A run changes nothing but registers R0 to R14 and pc: the flags, DIT, iset, itstate, memory and R15 at
any point of it are those of the launch (R25 to R28, R40, R21). -/
def Obligations.RunChangesOnlyRegsAndPc : Prop :=
  ∀ (endPc : Word) (n : Nat) (s : State),
    let t := (runTo endPc n s).state
    t.cpsr = s.cpsr ∧ t.iset = s.iset ∧ t.itstate = s.itstate ∧ t.mem = s.mem
      ∧ t.reg 15 = s.reg 15

/-- R133: a run is final exactly when pc is `end_pc` before a fetch, at which nothing is executed; a
refused run is not final and stands at the state before the refused instruction (R112, R115). -/
def Obligations.RunFinalAtEndPc : Prop :=
  (∀ (endPc : Word) (n : Nat) (s t : State), runTo endPc n s = .final t → t.pc = endPc)
  ∧ (∀ (endPc : Word) (n : Nat) (s : State), s.pc = endPc → runTo endPc n s = .final s)
  ∧ ∀ (endPc : Word) (n : Nat) (s t : State) (r : Refusal), runTo endPc n s = .refused t r →
      t.pc ≠ endPc ∧ step t = .refused r

/-- R133: a run cannot loop; from every state it is final or refused within 2^31 steps, one for each
halfword of the address space (the spec's inference from R24). -/
def Obligations.EveryRunEnds : Prop :=
  ∀ (endPc : Word) (s : State), ∃ n ≤ 2147483648,
    (∃ t, runTo endPc n s = .final t) ∨ ∃ t r, runTo endPc n s = .refused t r

/-- The launch premises P1 to P3 of R132 carry a run to its end: where they hold and text is left, the
step gives a next state in which they hold for the rest; where none is left, pc is `end_pc`. That the
text of P3 holds well-formed UXTB encodings alone is the model's choice, log 23. -/
def Obligations.LaunchPremisesCarryRun : Prop :=
  (∀ (s : State) (i : Instr) (rest : List Instr) (endPc : Word), LaunchOk s (i :: rest) endPc →
    ∃ t, step s = .next t ∧ LaunchOk t rest endPc)
  ∧ ∀ (s : State) (endPc : Word), LaunchOk s [] endPc → s.pc = endPc
end

