-- ==== Sys2Proof/Laws/Decode.lean ====
section
/-! SUPPORT. The fields of the encodings, the masks of the opcode table as fields, and the byte order. -/

namespace Sys2Proof

@[simp] theorem iset_uxtbA1 (c : Cond) (rd : RegNum) (rotate : Rotation) (rm : RegNum) :
    (Instr.uxtbA1 c rd rotate rm).iset = .a32 := rfl
@[simp] theorem iset_uxtbT1 (rm rd : LowReg) : (Instr.uxtbT1 rm rd).iset = .t32 := rfl
@[simp] theorem iset_uxtbT2 (rd : RegNum) (rotate : Rotation) (rm : RegNum) :
    (Instr.uxtbT2 rd rotate rm).iset = .t32 := rfl
@[simp] theorem len_uxtbA1 (c : Cond) (rd : RegNum) (rotate : Rotation) (rm : RegNum) :
    (Instr.uxtbA1 c rd rotate rm).len = 4 := rfl
@[simp] theorem len_uxtbT1 (rm rd : LowReg) : (Instr.uxtbT1 rm rd).len = 2 := rfl
@[simp] theorem len_uxtbT2 (rd : RegNum) (rotate : Rotation) (rm : RegNum) :
    (Instr.uxtbT2 rd rotate rm).len = 4 := rfl

/-! ### Fields -/

@[simp] theorem regOfField_regField (r : RegNum) : regOfField (regField r) = r := rfl
@[simp] theorem regField_regOfField (f : BitVec 4) : regField (regOfField f) = f := rfl
@[simp] theorem lowRegOfField_lowRegField (r : LowReg) : lowRegOfField (lowRegField r) = r := rfl
@[simp] theorem lowRegField_lowRegOfField (f : BitVec 3) : lowRegField (lowRegOfField f) = f := rfl
@[simp] theorem rotationOfField_field (r : Rotation) : rotationOfField r.field = r := by
  cases r <;> rfl
@[simp] theorem field_rotationOfField (f : BitVec 2) : (rotationOfField f).field = f := by
  revert f; decide
@[simp] theorem condOfField_field (c : Cond) : condOfField c.field = some c := by cases c <;> rfl

/-- The condition a field holds, and the field of a condition. -/
theorem condOfField_eq_some : ∀ (f : BitVec 4) (c : Cond), condOfField f = some c ↔ c.field = f := by
  intro f c
  constructor
  · revert f c
    have : ∀ f : BitVec 4, ∀ c ∈ condOfField f, c.field = f := by decide
    exact fun f c h => this f c h
  · rintro rfl; exact condOfField_field c

theorem condField_ne_1111 (c : Cond) : c.field ≠ 0b1111#4 := by cases c <;> decide

/-- Every field but 1111 is the code of a condition. -/
theorem condOfField_isSome (f : BitVec 4) (h : f ≠ 0b1111#4) : ∃ c, condOfField f = some c := by
  have : ∀ f : BitVec 4, f ≠ 0b1111#4 → (condOfField f).isSome = true := by decide
  exact Option.isSome_iff_exists.mp (this f h)

/-! ### The masks as fields -/

/-- Two words agree when their bits do, bit by bit. -/
theorem word_ext {v w : Word} (h : ∀ i : Fin 32, v.getLsbD i = w.getLsbD i) : v = w :=
  BitVec.eq_of_getLsbD_eq fun i hi => h ⟨i, hi⟩

/-- A masked comparison, bit by bit. -/
theorem mask_eq_iff {n : Nat} (w m p : BitVec n) (hp : p &&& m = p) :
    w &&& m = p ↔ ∀ i : Fin n, m.getLsbD i = true → w.getLsbD i = p.getLsbD i := by
  constructor
  · intro h i hm
    rw [← h, BitVec.getLsbD_and, hm, Bool.and_true]
  · intro h
    refine BitVec.eq_of_getLsbD_eq fun i hi => ?_
    rw [BitVec.getLsbD_and]
    cases hm : m.getLsbD i with
    | true => rw [Bool.and_true, h ⟨i, hi⟩ hm]
    | false => rw [← hp, BitVec.getLsbD_and, hm, Bool.and_false, Bool.and_false]

/-- A field comparison, bit by bit. -/
theorem field_eq_iff {v : Nat} (w : BitVec v) (a n : Nat) (c : BitVec n) :
    w.extractLsb' a n = c ↔ ∀ i : Fin n, w.getLsbD (a + i) = c.getLsbD i := by
  constructor
  · rintro rfl i
    simp
  · intro h
    refine BitVec.eq_of_getLsbD_eq fun i hi => ?_
    rw [BitVec.getLsbD_extractLsb', h ⟨i, hi⟩]
    simp [hi]

/-- Row A1 of the opcode table by fields (spec/30_encoding.md R61, R65). -/
theorem matchesA1_iff (w : Word) : matchesA1 w = true ↔
    w.extractLsb' 28 4 ≠ 0b1111#4 ∧ w.extractLsb' 16 12 = 0b011011101111#12
      ∧ w.extractLsb' 4 4 = 0b0111#4 := by
  simp only [matchesA1, Bool.and_eq_true, beq_iff_eq, bne_iff_ne, ne_eq]
  rw [and_comm, mask_eq_iff _ _ _ (by decide), field_eq_iff w 16, field_eq_iff w 4]
  refine and_congr_right fun _ => ?_
  simp [Fin.forall_fin_succ]
  tauto

/-- The should-be-zero bits of A1, on a word that matches (R67). -/
theorem strictA1_iff (w : Word) (h : matchesA1 w = true) :
    strictA1 w = true ↔ w.extractLsb' 8 2 = 0b00#2 := by
  obtain ⟨-, h1, h2⟩ := (matchesA1_iff w).mp h
  rw [field_eq_iff] at h1 h2
  rw [strictA1, beq_iff_eq, mask_eq_iff _ _ _ (by decide), field_eq_iff]
  simp [Fin.forall_fin_succ] at h1 h2 ⊢
  tauto

/-- Row T1 by fields (R62, R65). -/
theorem matchesT1_iff (h : Half) : matchesT1 h = true ↔ h.extractLsb' 6 10 = 0b1011001011#10 := by
  rw [matchesT1, beq_iff_eq, mask_eq_iff _ _ _ (by decide), field_eq_iff]
  simp [Fin.forall_fin_succ]

/-- Row T2 by fields (R63, R65). -/
theorem matchesT2_iff (w : Word) : matchesT2 w = true ↔
    w.extractLsb' 12 20 = 0b11111010010111111111#20 ∧ w.extractLsb' 7 1 = 0b1#1 := by
  rw [matchesT2, beq_iff_eq, mask_eq_iff _ _ _ (by decide), field_eq_iff w 12, field_eq_iff w 7]
  simp [Fin.forall_fin_succ]
  tauto

/-- The should-be-zero bit of T2, on a word that matches (R67). -/
theorem strictT2_iff (w : Word) (h : matchesT2 w = true) :
    strictT2 w = true ↔ w.extractLsb' 6 1 = 0b0#1 := by
  obtain ⟨h1, h2⟩ := (matchesT2_iff w).mp h
  rw [field_eq_iff] at h1 h2
  rw [strictT2, beq_iff_eq, mask_eq_iff _ _ _ (by decide), field_eq_iff]
  simp [Fin.forall_fin_succ] at h1 h2 ⊢
  tauto

/-! ### What the decoder accepts -/

/-- A decoded A32 word: the row matches, the should-be-zero bits are 0, and the operands are the
fields. -/
theorem decodeA1_ok (w : Word) (i : Instr) : decodeA1 w = .ok i ↔
    matchesA1 w = true ∧ strictA1 w = true
      ∧ namesR15 (regOfField (w.extractLsb' 12 4)) (regOfField (w.extractLsb' 0 4)) = false
      ∧ ∃ c, condOfField (w.extractLsb' 28 4) = some c
        ∧ i = .uxtbA1 c (regOfField (w.extractLsb' 12 4)) (rotationOfField (w.extractLsb' 10 2))
          (regOfField (w.extractLsb' 0 4)) := by
  unfold decodeA1
  cases matchesA1 w
  · simp
  · cases strictA1 w
    · simp
    · cases hn : namesR15 (regOfField (w.extractLsb' 12 4)) (regOfField (w.extractLsb' 0 4))
      · cases condOfField (w.extractLsb' 28 4) <;> simp [hn, eq_comm (b := i)]
      · simp [hn]

/-- A decoded T32 halfword. -/
theorem decodeT1_ok (h : Half) (i : Instr) : decodeT1 h = .ok i ↔ matchesT1 h = true
    ∧ i = .uxtbT1 (lowRegOfField (h.extractLsb' 3 3)) (lowRegOfField (h.extractLsb' 0 3)) := by
  unfold decodeT1
  cases matchesT1 h <;> simp [eq_comm]

/-- A decoded 32-bit T32 instruction. -/
theorem decodeT2_ok (w : Word) (i : Instr) : decodeT2 w = .ok i ↔
    matchesT2 w = true ∧ strictT2 w = true
      ∧ namesR15 (regOfField (w.extractLsb' 8 4)) (regOfField (w.extractLsb' 0 4)) = false
      ∧ i = .uxtbT2 (regOfField (w.extractLsb' 8 4)) (rotationOfField (w.extractLsb' 4 2))
        (regOfField (w.extractLsb' 0 4)) := by
  unfold decodeT2
  cases matchesT2 w
  · simp
  · cases strictT2 w
    · simp
    · cases hn : namesR15 (regOfField (w.extractLsb' 8 4)) (regOfField (w.extractLsb' 0 4)) <;>
        simp [hn, eq_comm (b := i)]

/-- Register 15 in either field, as fields (R66 step 4). -/
theorem namesR15_fields (f g : BitVec 4) :
    namesR15 (regOfField f) (regOfField g) = true ↔ f = 0b1111#4 ∨ g = 0b1111#4 := by
  revert f g; decide

/-! ### The fields of an encoding -/

/-- The fields of an A1 word put together from them. -/
theorem fieldsA1 (c rd rm : BitVec 4) (ro : BitVec 2) :
    let w : Word := c ++ 0b011011101111#12 ++ rd ++ ro ++ 0b00#2 ++ 0b0111#4 ++ rm
    w.extractLsb' 28 4 = c ∧ w.extractLsb' 16 12 = 0b011011101111#12 ∧ w.extractLsb' 12 4 = rd
      ∧ w.extractLsb' 10 2 = ro ∧ w.extractLsb' 8 2 = 0b00#2 ∧ w.extractLsb' 4 4 = 0b0111#4
      ∧ w.extractLsb' 0 4 = rm := by
  refine ⟨?_, ?_, ?_, ?_, ?_, ?_, ?_⟩ <;>
    (refine BitVec.eq_of_getLsbD_eq fun i hi => ?_
     rw [BitVec.getLsbD_extractLsb', BitVec.getLsbD_append]
     simp only [BitVec.getLsbD_append]
     interval_cases i <;> simp)

/-- The fields of a T1 halfword put together from them. -/
theorem fieldsT1 (rm rd : BitVec 3) :
    let h : Half := 0b1011001011#10 ++ rm ++ rd
    h.extractLsb' 6 10 = 0b1011001011#10 ∧ h.extractLsb' 3 3 = rm ∧ h.extractLsb' 0 3 = rd := by
  refine ⟨?_, ?_, ?_⟩ <;>
    (refine BitVec.eq_of_getLsbD_eq fun i hi => ?_
     rw [BitVec.getLsbD_extractLsb', BitVec.getLsbD_append]
     simp only [BitVec.getLsbD_append]
     interval_cases i <;> simp)

/-- The fields of a T2 word put together from them. -/
theorem fieldsT2 (rd rm : BitVec 4) (ro : BitVec 2) :
    let w : Word := 0b11111010010111111111#20 ++ rd ++ 0b10#2 ++ ro ++ rm
    w.extractLsb' 12 20 = 0b11111010010111111111#20 ∧ w.extractLsb' 8 4 = rd
      ∧ w.extractLsb' 7 1 = 0b1#1 ∧ w.extractLsb' 6 1 = 0b0#1 ∧ w.extractLsb' 4 2 = ro
      ∧ w.extractLsb' 0 4 = rm := by
  refine ⟨?_, ?_, ?_, ?_, ?_, ?_⟩ <;>
    (refine BitVec.eq_of_getLsbD_eq fun i hi => ?_
     rw [BitVec.getLsbD_extractLsb', BitVec.getLsbD_append]
     simp only [BitVec.getLsbD_append]
     interval_cases i <;> simp)

/-- The fields of an encoded A1. -/
theorem encodeA1_fields (c : Cond) (rd : RegNum) (rotate : Rotation) (rm : RegNum) :
    let w := encodeA1 c rd rotate rm
    w.extractLsb' 28 4 = c.field ∧ w.extractLsb' 16 12 = 0b011011101111#12
      ∧ w.extractLsb' 12 4 = regField rd ∧ w.extractLsb' 10 2 = rotate.field
      ∧ w.extractLsb' 8 2 = 0b00#2 ∧ w.extractLsb' 4 4 = 0b0111#4
      ∧ w.extractLsb' 0 4 = regField rm :=
  fieldsA1 c.field (regField rd) (regField rm) rotate.field

/-- The fields of an encoded T1. -/
theorem encodeT1_fields (rm rd : LowReg) :
    let h := encodeT1 rm rd
    h.extractLsb' 6 10 = 0b1011001011#10 ∧ h.extractLsb' 3 3 = lowRegField rm
      ∧ h.extractLsb' 0 3 = lowRegField rd :=
  fieldsT1 (lowRegField rm) (lowRegField rd)

/-- The fields of an encoded T2. -/
theorem encodeT2_fields (rd : RegNum) (rotate : Rotation) (rm : RegNum) :
    let w := encodeT2 rd rotate rm
    w.extractLsb' 12 20 = 0b11111010010111111111#20 ∧ w.extractLsb' 8 4 = regField rd
      ∧ w.extractLsb' 7 1 = 0b1#1 ∧ w.extractLsb' 6 1 = 0b0#1 ∧ w.extractLsb' 4 2 = rotate.field
      ∧ w.extractLsb' 0 4 = regField rm :=
  fieldsT2 (regField rd) (regField rm) rotate.field

/-- A field of a field is a field of the word. -/
theorem extract_extract (w : Word) (a n b k : Nat) (h : b + k ≤ n) :
    (w.extractLsb' a n).extractLsb' b k = w.extractLsb' (a + b) k := by
  refine BitVec.eq_of_getLsbD_eq fun i hi => ?_
  rw [BitVec.getLsbD_extractLsb', BitVec.getLsbD_extractLsb', BitVec.getLsbD_extractLsb', Nat.add_assoc]
  have : b + i < n := by omega
  simp [this]

/-- The first halfword of an encoded T2 says 32 bits (spec/20_memory.md R43). -/
theorem isWide_encodeT2 (rd : RegNum) (rotate : Rotation) (rm : RegNum) :
    isWide ((encodeT2 rd rotate rm).extractLsb' 16 16) = true := by
  have h := extract_extract (encodeT2 rd rotate rm) 12 20 4 16 (by decide)
  rw [(encodeT2_fields rd rotate rm).1] at h
  rw [← h]
  rfl

/-- An encoded T1 is a 16-bit instruction (spec/20_memory.md R43). -/
theorem isWide_encodeT1 (rm rd : LowReg) : isWide (encodeT1 rm rd) = false := by
  revert rm rd; decide

/-- A word is its A1 fields put together. -/
theorem joinA1 (w : Word) :
    (w.extractLsb' 28 4 ++ w.extractLsb' 16 12 ++ w.extractLsb' 12 4 ++ w.extractLsb' 10 2
      ++ w.extractLsb' 8 2 ++ w.extractLsb' 4 4 ++ w.extractLsb' 0 4 : Word) = w := by
  refine BitVec.eq_of_getLsbD_eq fun i hi => ?_
  rw [BitVec.getLsbD_append]
  simp only [BitVec.getLsbD_append]
  interval_cases i <;> simp

/-- A halfword is its T1 fields put together. -/
theorem joinT1 (h : Half) :
    (h.extractLsb' 6 10 ++ h.extractLsb' 3 3 ++ h.extractLsb' 0 3 : Half) = h := by
  refine BitVec.eq_of_getLsbD_eq fun i hi => ?_
  rw [BitVec.getLsbD_append]
  simp only [BitVec.getLsbD_append]
  interval_cases i <;> simp

/-- A word is its T2 fields put together. -/
theorem joinT2 (w : Word) :
    (w.extractLsb' 12 20 ++ w.extractLsb' 8 4 ++ (w.extractLsb' 7 1 ++ w.extractLsb' 6 1)
      ++ w.extractLsb' 4 2 ++ w.extractLsb' 0 4 : Word) = w := by
  refine BitVec.eq_of_getLsbD_eq fun i hi => ?_
  rw [BitVec.getLsbD_append]
  simp only [BitVec.getLsbD_append]
  interval_cases i <;> simp

/-! ### Byte order -/

/-- The bytes of a halfword put together again. -/
theorem le16_halfBytes (h : Half) : le16 (h.extractLsb' 0 8) (h.extractLsb' 8 8) = h := by
  refine BitVec.eq_of_getLsbD_eq fun i hi => ?_
  rw [le16, BitVec.getLsbD_append]
  interval_cases i <;> simp

/-- The bytes of a little-endian halfword. -/
theorem bytes_le16 (b0 b1 : Byte) :
    (le16 b0 b1).extractLsb' 0 8 = b0 ∧ (le16 b0 b1).extractLsb' 8 8 = b1 := by
  constructor <;>
    (refine BitVec.eq_of_getLsbD_eq fun i hi => ?_
     rw [BitVec.getLsbD_extractLsb', le16, BitVec.getLsbD_append]
     interval_cases i <;> simp)

/-- The bytes of a little-endian word. -/
theorem bytes_le32 (b0 b1 b2 b3 : Byte) :
    (le32 b0 b1 b2 b3).extractLsb' 0 8 = b0 ∧ (le32 b0 b1 b2 b3).extractLsb' 8 8 = b1
      ∧ (le32 b0 b1 b2 b3).extractLsb' 16 8 = b2 ∧ (le32 b0 b1 b2 b3).extractLsb' 24 8 = b3 := by
  refine ⟨?_, ?_, ?_, ?_⟩ <;>
    (refine BitVec.eq_of_getLsbD_eq fun i hi => ?_
     rw [BitVec.getLsbD_extractLsb', le32, BitVec.getLsbD_append]
     simp only [BitVec.getLsbD_append]
     interval_cases i <;> simp)

/-- A word is its two halves put together. -/
theorem halves_join (w : Word) : (w.extractLsb' 16 16 ++ w.extractLsb' 0 16 : Word) = w := by
  refine BitVec.eq_of_getLsbD_eq fun i hi => ?_
  rw [BitVec.getLsbD_append]
  interval_cases i <;> simp

/-- The halves of two halfwords put together. -/
theorem halves_split (h l : Half) :
    (h ++ l : Word).extractLsb' 16 16 = h ∧ (h ++ l : Word).extractLsb' 0 16 = l := by
  constructor <;>
    (refine BitVec.eq_of_getLsbD_eq fun i hi => ?_
     rw [BitVec.getLsbD_extractLsb', BitVec.getLsbD_append]
     interval_cases i <;> simp)

/-- The four bytes of a word, the two of each half, put together again. -/
theorem le32_halves (h l : Half) :
    le32 (l.extractLsb' 0 8) (l.extractLsb' 8 8) (h.extractLsb' 0 8) (h.extractLsb' 8 8)
      = (h ++ l : Word) := by
  refine BitVec.eq_of_getLsbD_eq fun i hi => ?_
  rw [le32, BitVec.getLsbD_append, BitVec.getLsbD_append]
  simp only [BitVec.getLsbD_append]
  interval_cases i <;> simp

/-- A list that begins with the bytes of an instruction gives that instruction's bits, where a T32
instruction's width is what its first halfword says. -/
theorem rawOfBytes_layout (iset : ISet) (raw : RawInstr) (rest : List Byte)
    (h : match iset, raw with
      | .a32, .word _ => True
      | .a32, .half _ => False
      | .t32, .half h => isWide h = false
      | .t32, .word w => isWide (w.extractLsb' 16 16) = true) :
    rawOfBytes iset (layout iset raw ++ rest) = some (raw, rest) := by
  cases iset <;> cases raw
  · exact h.elim
  · simp only [layout, halfBytes, List.cons_append, List.nil_append, rawOfBytes, le32_halves,
      halves_join]
  · simp only [layout, halfBytes, List.cons_append, List.nil_append, rawOfBytes, le16_halfBytes]
    simp only [] at h
    rw [h]; rfl
  · simp only [layout, halfBytes, List.cons_append, List.nil_append, rawOfBytes, le16_halfBytes]
    simp only [] at h
    rw [h, if_pos rfl, halves_join]

end Sys2Proof
end

