-- ==== Sys2Proof/Laws/Operands.lean ====
section
/-! SUPPORT. What the rotation and the byte selection compute. -/

namespace Sys2Proof.Machine

theorem rotationAmount_lt (r : Rotation) : rotationAmount r < 32 := by cases r <;> decide

theorem rotationAmount_dvd (r : Rotation) : 8 ∣ rotationAmount r := by cases r <;> decide

/-- `ror32` is the library's rotation, for the amounts R8 allows. -/
theorem ror32_eq_rotateRight (v : Word) (n : Nat) (h : n < 32) : ror32 v n = v.rotateRight n := by
  simp [ror32, BitVec.rotateRight, BitVec.rotateRightAux, Nat.mod_eq_of_lt h]

/-- The low byte of a value rotated by 0 to 24 bits starts at bit `n` of it. -/
theorem ror32_low_byte (v : Word) (n : Nat) (h : n ≤ 24) :
    (ror32 v n).extractLsb' 0 8 = v.extractLsb' n 8 := by
  apply BitVec.eq_of_getLsbD_eq
  intro i hi
  simp only [ror32, BitVec.getLsbD_extractLsb', BitVec.getLsbD_or, BitVec.getLsbD_ushiftRight,
    BitVec.getLsbD_shiftLeft, Nat.zero_add]
  have : i < 32 - n := by omega
  simp [this]

/-- What UXTB writes, as a byte of the source. -/
theorem uxtbResult_eq (r : Rotation) (v : Word) :
    uxtbResult r v = zext32 (v.extractLsb' (rotationAmount r) 8) := by
  rw [uxtbResult, ror32_low_byte _ _ (by cases r <;> decide)]

/-- What UXTB writes, as an integer. -/
theorem uxtbResult_toNat (r : Rotation) (v : Word) :
    (uxtbResult r v).toNat = v.toNat / 2 ^ rotationAmount r % 256 := by
  rw [uxtbResult_eq]
  simp only [zext32, BitVec.toNat_setWidth, BitVec.extractLsb'_toNat, Nat.shiftRight_eq_div_pow]
  omega

@[simp] theorem regOfLow_val (r : LowReg) : (regOfLow r).val = r.val := rfl

/-- A 3-bit field never names register 15. -/
theorem regOfLow_ne_15 (r : LowReg) : regOfLow r ≠ 15 := by revert r; decide

end Sys2Proof.Machine
end

