-- ==== Sys2Proof/Laws/State.lean ====
section
/-! SUPPORT. One lemma per field per update of the state, and the two register laws: a read after a
write gives the value written, and a write leaves every other register alone. -/

namespace Sys2Proof.Machine

@[simp] theorem setReg_pc (s : State) (i : RegNum) (v : Word) : (s.setReg i v).pc = s.pc := rfl
@[simp] theorem setReg_cpsr (s : State) (i : RegNum) (v : Word) : (s.setReg i v).cpsr = s.cpsr := rfl
@[simp] theorem setReg_iset (s : State) (i : RegNum) (v : Word) : (s.setReg i v).iset = s.iset := rfl
@[simp] theorem setReg_itstate (s : State) (i : RegNum) (v : Word) :
    (s.setReg i v).itstate = s.itstate := rfl
@[simp] theorem setReg_mem (s : State) (i : RegNum) (v : Word) : (s.setReg i v).mem = s.mem := rfl
@[simp] theorem setReg_regs (s : State) (i : RegNum) (v : Word) :
    (s.setReg i v).regs = s.regs.set i v := rfl

@[simp] theorem advance_regs (s : State) (n : Nat) : (s.advance n).regs = s.regs := rfl
@[simp] theorem advance_pc (s : State) (n : Nat) :
    (s.advance n).pc = s.pc + BitVec.ofNat 32 n := rfl
@[simp] theorem advance_cpsr (s : State) (n : Nat) : (s.advance n).cpsr = s.cpsr := rfl
@[simp] theorem advance_iset (s : State) (n : Nat) : (s.advance n).iset = s.iset := rfl
@[simp] theorem advance_itstate (s : State) (n : Nat) : (s.advance n).itstate = s.itstate := rfl
@[simp] theorem advance_mem (s : State) (n : Nat) : (s.advance n).mem = s.mem := rfl

@[simp] theorem advance_reg (s : State) (n : Nat) (r : RegNum) : (s.advance n).reg r = s.reg r := rfl

@[simp] theorem reg_setReg_self (s : State) (i : RegNum) (v : Word) : (s.setReg i v).reg i = v := by
  simp [State.reg, State.setReg]

theorem reg_setReg_ne (s : State) (i j : RegNum) (v : Word) (h : j ≠ i) :
    (s.setReg i v).reg j = s.reg j := by
  have h' : i.val ≠ j.val := fun e => h (Fin.ext e.symm)
  simp [State.reg, State.setReg, Vector.getElem_set_ne, h']

/-- Writes to different registers commute. -/
theorem setReg_comm (s : State) (i j : RegNum) (v w : Word) (h : i ≠ j) :
    (s.setReg i v).setReg j w = (s.setReg j w).setReg i v := by
  have h' : i.val ≠ j.val := fun e => h (Fin.ext e)
  exact congrArg (fun r => { s with regs := r }) (Vector.set_comm v w h')

/-- The wrap test in integers. -/
theorem pcWraps_iff (s : State) (n : Nat) : s.pcWraps n = true ↔ 4294967296 ≤ s.pc.toNat + n := by
  unfold State.pcWraps Config.addressLimit
  exact decide_eq_true_iff

/-- The advance in integers, where it does not wrap. -/
theorem advance_pc_toNat (s : State) (n : Nat) (h : s.pc.toNat + n < 4294967296) :
    (s.advance n).pc.toNat = s.pc.toNat + n := by
  rw [advance_pc, BitVec.toNat_add, BitVec.toNat_ofNat]
  omega

/-- Alignment in integers, A32. -/
theorem aligned_a32 (s : State) (h : s.iset = .a32) : s.aligned = true ↔ s.pc.toNat % 4 = 0 := by
  simp [State.aligned, h, ← BitVec.toNat_inj]

/-- Alignment in integers, T32. -/
theorem aligned_t32 (s : State) (h : s.iset = .t32) : s.aligned = true ↔ s.pc.toNat % 2 = 0 := by
  simp [State.aligned, h, ← BitVec.toNat_inj]

end Sys2Proof.Machine
end

