-- ==== Sys2Proof/Laws/Extend.lean ====
section
/-! SUPPORT. Everything an execution of UXTB can do: the three meanings in one form, and the inversion
lemmas that later proofs cite instead of unfolding them. -/

namespace Sys2Proof.Machine

/-- The rotation operand of an instruction (none in T1 is a rotation by 0). -/
def rotateOf : Instr → Rotation
  | .uxtbA1 _ _ rotate _ => rotate
  | .uxtbT1 _ _ => .ror0
  | .uxtbT2 _ rotate _ => rotate

theorem instrRotation_eq (i : Instr) : instrRotation i = rotationAmount (rotateOf i) := by
  cases i <;> rfl

/-- The state after a UXTB that is executed: the register write if the condition passed, the advance
of pc either way. -/
def uxtbNext (i : Instr) (s : State) : State :=
  (if conditionPassed (instrCond i) s.cpsr then
    s.setReg (destReg i) (uxtbResult (rotateOf i) (s.reg (srcReg i))) else s).advance i.len

/-- The shared operation of a runnable length, in terms of its next state. -/
theorem exec_runnable (i : Instr) (s : State) (h : Runnable i s) : exec i s = .next (uxtbNext i s) := by
  obtain ⟨hwf, hit, hpc⟩ := h
  cases i with
  | uxtbA1 c rd rotate rm =>
    have h15 : namesR15 rd rm = false := by simpa [Instr.wf] using hwf
    have hw : s.pcWraps 4 = false := by
      rw [Bool.eq_false_iff, ne_eq, pcWraps_iff]; exact Nat.not_le.mpr hpc
    simp only [exec, execUxtbA1, h15, uxtb, hw, uxtbNext, instrCond, destReg, srcReg, rotateOf,
      Instr.len, Bool.false_eq_true, ite_false]
    split <;> simp [*]
  | uxtbT1 rm rd =>
    have hw : s.pcWraps 2 = false := by
      rw [Bool.eq_false_iff, ne_eq, pcWraps_iff]; exact Nat.not_le.mpr hpc
    simp only [exec, execUxtbT1, hit rfl, uxtb, hw, uxtbNext, instrCond, destReg, srcReg, rotateOf,
      Instr.len, conditionPassed, Bool.false_eq_true, ite_false, ite_true]
  | uxtbT2 rd rotate rm =>
    have h15 : namesR15 rd rm = false := by simpa [Instr.wf] using hwf
    have hw : s.pcWraps 4 = false := by
      rw [Bool.eq_false_iff, ne_eq, pcWraps_iff]; exact Nat.not_le.mpr hpc
    simp only [exec, execUxtbT2, hit rfl, h15, uxtb, hw, uxtbNext, instrCond, destReg, srcReg, rotateOf,
      Instr.len, conditionPassed, Bool.false_eq_true, ite_false, ite_true]

/-- An instruction that is not runnable is refused, for the first of the three reasons that holds. -/
theorem exec_not_runnable (i : Instr) (s : State) (h : ¬ Runnable i s) :
    exec i s = .refused (if i.iset = .t32 ∧ s.itstate ≠ 0#8 then .inITBlock
      else if i.wf = true then .pcWrap else .unpredictableR15) := by
  have wraps : ∀ n, ¬ s.pc.toNat + n < 4294967296 → s.pcWraps n = true := fun n hn =>
    (pcWraps_iff s n).mpr (Nat.not_lt.mp hn)
  cases i with
  | uxtbA1 c rd rotate rm =>
    cases h15 : namesR15 rd rm with
    | true => simp [exec, execUxtbA1, h15, Instr.wf, Instr.iset]
    | false =>
      have := wraps 4 fun hn => h ⟨by simp [Instr.wf, h15], by simp [Instr.iset], hn⟩
      simp [exec, execUxtbA1, h15, Instr.wf, Instr.iset, uxtb, this]
  | uxtbT1 rm rd =>
    by_cases hit : s.itstate = 0#8
    · have := wraps 2 fun hn => h ⟨rfl, fun _ => hit, hn⟩
      simp [exec, execUxtbT1, hit, Instr.wf, Instr.iset, uxtb, this]
    · simp [exec, execUxtbT1, hit, Instr.iset]
  | uxtbT2 rd rotate rm =>
    by_cases hit : s.itstate = 0#8
    · cases h15 : namesR15 rd rm with
      | true => simp [exec, execUxtbT2, hit, h15, Instr.wf, Instr.iset]
      | false =>
        have := wraps 4 fun hn => h ⟨by simp [Instr.wf, h15], fun _ => hit, hn⟩
        simp [exec, execUxtbT2, hit, h15, Instr.wf, Instr.iset, uxtb, this]
    · simp [exec, execUxtbT2, hit, Instr.iset]

/-- A next state comes from a runnable instruction, and is the one state `uxtbNext` gives. -/
theorem exec_next (i : Instr) (s t : State) (h : exec i s = .next t) :
    Runnable i s ∧ t = uxtbNext i s := by
  by_cases hr : Runnable i s
  · rw [exec_runnable i s hr] at h
    exact ⟨hr, (Host.Outcome.next.inj h).symm⟩
  · rw [exec_not_runnable i s hr] at h; cases h

@[simp] theorem uxtbNext_pc (i : Instr) (s : State) :
    (uxtbNext i s).pc = s.pc + BitVec.ofNat 32 i.len := by
  unfold uxtbNext; split <;> rfl

@[simp] theorem uxtbNext_cpsr (i : Instr) (s : State) : (uxtbNext i s).cpsr = s.cpsr := by
  unfold uxtbNext; split <;> rfl

@[simp] theorem uxtbNext_iset (i : Instr) (s : State) : (uxtbNext i s).iset = s.iset := by
  unfold uxtbNext; split <;> rfl

@[simp] theorem uxtbNext_itstate (i : Instr) (s : State) : (uxtbNext i s).itstate = s.itstate := by
  unfold uxtbNext; split <;> rfl

@[simp] theorem uxtbNext_mem (i : Instr) (s : State) : (uxtbNext i s).mem = s.mem := by
  unfold uxtbNext; split <;> rfl

/-- The destination after a UXTB whose condition passed. -/
theorem uxtbNext_dest (i : Instr) (s : State) (h : conditionPassed (instrCond i) s.cpsr = true) :
    (uxtbNext i s).reg (destReg i) = uxtbResult (rotateOf i) (s.reg (srcReg i)) := by
  simp [uxtbNext, h]

/-- Every register but the destination after a UXTB. -/
theorem uxtbNext_other (i : Instr) (s : State) (r : RegNum) (h : r ≠ destReg i) :
    (uxtbNext i s).reg r = s.reg r := by
  unfold uxtbNext; split
  · rw [advance_reg, reg_setReg_ne _ _ _ _ h]
  · rfl

/-- pc after a runnable instruction, in integers. -/
theorem uxtbNext_pc_toNat (i : Instr) (s : State) (h : Runnable i s) :
    (uxtbNext i s).pc.toNat = s.pc.toNat + i.len := by
  rw [uxtbNext_pc, BitVec.toNat_add, BitVec.toNat_ofNat]
  have := h.2.2
  omega

/-- A well-formed instruction names register 15 neither as its destination nor as its source. -/
theorem wf_regs_ne_15 (i : Instr) (h : i.wf = true) : destReg i ≠ 15 ∧ srcReg i ≠ 15 := by
  cases i with
  | uxtbA1 c rd rotate rm => simpa [Instr.wf, namesR15, destReg, srcReg] using h
  | uxtbT1 rm rd => exact ⟨regOfLow_ne_15 rd, regOfLow_ne_15 rm⟩
  | uxtbT2 rd rotate rm => simpa [Instr.wf, namesR15, destReg, srcReg] using h

end Sys2Proof.Machine
end

