-- ==== Sys2Proof/Laws/Memory.lean ====
section
/-! SUPPORT. The laws of memory: every operation keeps the canonical form, a read after a write gives
the byte written, and a write leaves every other address alone. -/

namespace Sys2Proof.Machine

/-- Reading an address of an inserted byte. -/
theorem read_insert (m : Memory) (a k : Nat) (b : Byte) :
    (m.insert a b).read k = if k = a then some b else m.read k := by
  induction m with
  | nil => simp [Memory.insert, Memory.read]
  | cons c rest ih =>
    obtain ⟨j, x⟩ := c
    simp only [Memory.insert]
    split
    · simp [Memory.read]
    · split
      · subst_vars; simp only [Memory.read]; split <;> rfl
      · simp only [Memory.read, ih]
        split
        · subst_vars; rw [if_neg (by omega)]
        · rfl

/-- The entries of an inserted byte's memory are that byte and old ones. -/
theorem mem_insert (m : Memory) (a : Nat) (b : Byte) (c : Host.Cell) (h : c ∈ m.insert a b) :
    c = (a, b) ∨ c ∈ m := by
  induction m with
  | nil => simpa [Memory.insert] using h
  | cons d rest ih =>
    obtain ⟨j, x⟩ := d
    simp only [Memory.insert] at h
    split at h
    · simpa using h
    · split at h
      · rcases List.mem_cons.mp h with h | h
        · exact .inl h
        · exact .inr (List.mem_cons_of_mem _ h)
      · rcases List.mem_cons.mp h with h | h
        · exact .inr (h ▸ List.mem_cons_self)
        · exact (ih h).imp_right (List.mem_cons_of_mem _)

/-- Inserting below 2^32 keeps the canonical form. -/
theorem insert_wf (m : Memory) (a : Nat) (b : Byte) (ha : a < Config.addressLimit)
    (h : Memory.wf m) : Memory.wf (m.insert a b) := by
  refine ⟨?_, fun c hc => (mem_insert m a b c hc).elim (fun e => e ▸ ha) (h.2 c)⟩
  have hp := h.1
  clear h
  induction m with
  | nil => simp [Memory.insert]
  | cons d rest ih =>
    obtain ⟨j, x⟩ := d
    rw [List.pairwise_cons] at hp
    simp only [Memory.insert]
    split
    · refine List.pairwise_cons.mpr ⟨fun c hc => ?_, List.pairwise_cons.mpr hp⟩
      rcases List.mem_cons.mp hc with rfl | hc
      · assumption
      · exact Nat.lt_trans ‹_› (hp.1 c hc)
    · split
      · subst_vars; exact List.pairwise_cons.mpr hp
      · refine List.pairwise_cons.mpr ⟨fun c hc => ?_, ih hp.2⟩
        rcases mem_insert rest a b c hc with rfl | hc
        · show j < a; omega
        · exact hp.1 c hc

/-- A write keeps the canonical form. -/
theorem write_wf (m : Memory) (a : Nat) (b : Byte) (h : Memory.wf m) : Memory.wf (m.write a b) := by
  unfold Memory.write
  split
  · exact insert_wf m a b ‹_› h
  · exact h

/-- A write of many bytes keeps the canonical form. -/
theorem writeBytes_wf (bs : List Byte) (m : Memory) (a : Nat) (h : Memory.wf m) :
    Memory.wf (m.writeBytes a bs) := by
  induction bs generalizing m a with
  | nil => exact h
  | cons b rest ih => exact ih _ _ (write_wf m a b h)

/-- A read after a write, at an address there is. -/
theorem read_write (m : Memory) (a k : Nat) (b : Byte) (ha : a < Config.addressLimit) :
    (m.write a b).read k = if k = a then some b else m.read k := by
  simp [Memory.write, ha, read_insert]

/-- A read below what is written. -/
theorem read_writeBytes_lt (bs : List Byte) (m : Memory) (a k : Nat) (h : k < a) :
    (m.writeBytes a bs).read k = m.read k := by
  induction bs generalizing m a with
  | nil => rfl
  | cons b rest ih =>
    rw [Memory.writeBytes, ih _ _ (by omega), Memory.write]
    split
    · rw [read_insert, if_neg (by omega)]
    · rfl

/-- Bytes read back are the bytes written, where they fit below 2^32. -/
theorem readBytes_writeBytes (bs : List Byte) (m : Memory) (a : Nat)
    (h : a + bs.length ≤ Config.addressLimit) :
    (m.writeBytes a bs).readBytes a bs.length = some bs := by
  induction bs generalizing m a with
  | nil => rfl
  | cons b rest ih =>
    rw [List.length_cons] at h
    rw [List.length_cons, Memory.readBytes, Memory.writeBytes, read_writeBytes_lt _ _ _ _ (by omega),
      read_write _ _ _ _ (by omega), if_pos rfl, ih _ _ (by omega)]

/-- The memory of the state after reset has the canonical form. -/
theorem reset_mem_wf : Memory.wf State.reset.mem := by decide

/-- Placing an instruction keeps the canonical form. -/
theorem placeInstr_mem_wf (s : State) (iset : ISet) (bytes : List Byte) (h : Memory.wf s.mem) :
    Memory.wf (s.placeInstr iset bytes).mem := writeBytes_wf _ _ _ h

/-- Reading bytes depends on the mapped bytes alone. -/
theorem readBytes_congr (m m' : Memory) (h : ∀ a, m.read a = m'.read a) (n a : Nat) :
    m.readBytes a n = m'.readBytes a n := by
  induction n generalizing a with
  | zero => rfl
  | succ n ih => simp only [Memory.readBytes, h, ih]

theorem read16_congr (m m' : Memory) (h : ∀ a, m.read a = m'.read a) (a : Nat) :
    m.read16 a = m'.read16 a := by simp only [Memory.read16, readBytes_congr m m' h]

theorem read32_congr (m m' : Memory) (h : ∀ a, m.read a = m'.read a) (a : Nat) :
    m.read32 a = m'.read32 a := by simp only [Memory.read32, readBytes_congr m m' h]

/-- Two bytes are read exactly when both are mapped. -/
theorem readBytes_two (m : Memory) (a : Nat) (l : List Byte) :
    m.readBytes a 2 = some l ↔ ∃ b0 b1, m.read a = some b0 ∧ m.read (a + 1) = some b1 ∧ l = [b0, b1] := by
  simp only [Memory.readBytes]
  cases m.read a <;> cases m.read (a + 1) <;> simp [eq_comm]

/-- Four bytes are read exactly when all four are mapped. -/
theorem readBytes_four (m : Memory) (a : Nat) (l : List Byte) :
    m.readBytes a 4 = some l ↔ ∃ b0 b1 b2 b3, m.read a = some b0 ∧ m.read (a + 1) = some b1
      ∧ m.read (a + 2) = some b2 ∧ m.read (a + 3) = some b3 ∧ l = [b0, b1, b2, b3] := by
  simp only [Memory.readBytes, Nat.add_assoc, Nat.reduceAdd]
  cases m.read a <;> cases m.read (a + 1) <;> cases m.read (a + 2) <;> cases m.read (a + 3) <;>
    simp [eq_comm]

/-- A halfword read, byte by byte. -/
theorem read16_iff_bytes (m : Memory) (a : Nat) (v : Half) :
    m.read16 a = some v ↔ a + 2 ≤ Config.addressLimit
      ∧ ∃ b0 b1, m.read a = some b0 ∧ m.read (a + 1) = some b1 ∧ v = le16 b0 b1 := by
  unfold Memory.read16
  by_cases h : a + 2 ≤ Config.addressLimit
  · rw [if_pos h]
    cases hr : m.readBytes a 2 with
    | none =>
      simp only [reduceCtorEq, false_iff]
      rintro ⟨-, b0, b1, h0, h1, -⟩
      simp [(readBytes_two m a [b0, b1]).mpr ⟨b0, b1, h0, h1, rfl⟩] at hr
    | some l =>
      obtain ⟨b0, b1, h0, h1, rfl⟩ := (readBytes_two m a l).mp hr
      simp [h, h0, h1, eq_comm]
  · simp [h]

/-- A word read, byte by byte. -/
theorem read32_iff_bytes (m : Memory) (a : Nat) (v : Word) :
    m.read32 a = some v ↔ a + 4 ≤ Config.addressLimit
      ∧ ∃ b0 b1 b2 b3, m.read a = some b0 ∧ m.read (a + 1) = some b1 ∧ m.read (a + 2) = some b2
        ∧ m.read (a + 3) = some b3 ∧ v = le32 b0 b1 b2 b3 := by
  unfold Memory.read32
  by_cases h : a + 4 ≤ Config.addressLimit
  · rw [if_pos h]
    cases hr : m.readBytes a 4 with
    | none =>
      simp only [reduceCtorEq, false_iff]
      rintro ⟨-, b0, b1, b2, b3, h0, h1, h2, h3, -⟩
      simp [(readBytes_four m a [b0, b1, b2, b3]).mpr ⟨b0, b1, b2, b3, h0, h1, h2, h3, rfl⟩] at hr
    | some l =>
      obtain ⟨b0, b1, b2, b3, h0, h1, h2, h3, rfl⟩ := (readBytes_four m a l).mp hr
      simp [h, h0, h1, h2, h3, eq_comm]
  · simp [h]

end Sys2Proof.Machine
end

