-- ==== Sys2Proof/Laws/PerInstr.lean ====
section
/-! SUPPORT. Families of facts about every instruction as a term, one lemma per constructor. -/

namespace Sys2Proof.Laws

/-- The encoding has the length the instruction says, in its raw form and as bytes in memory
(spec/30_encoding.md R60). -/
def EncodedLength.Statement (i : Instr) : Prop :=
  (encode i).len = i.len ∧ (layout i.iset (encode i)).length = i.len

theorem EncodedLength.uxtbA1 (c : Cond) (rd : RegNum) (rotate : Rotation) (rm : RegNum) :
    EncodedLength.Statement (.uxtbA1 c rd rotate rm) := ⟨rfl, rfl⟩

theorem EncodedLength.uxtbT1 (rm rd : LowReg) : EncodedLength.Statement (.uxtbT1 rm rd) := ⟨rfl, rfl⟩

theorem EncodedLength.uxtbT2 (rd : RegNum) (rotate : Rotation) (rm : RegNum) :
    EncodedLength.Statement (.uxtbT2 rd rotate rm) := ⟨rfl, rfl⟩

end Sys2Proof.Laws
end

