-- ==== Sys2Proof/Laws/Step.lean ====
section
/-! SUPPORT. What the fetch and a step can do, said once. -/

namespace Sys2Proof.Machine

/-- The length rule in integers: the five top bits are 29, 30 or 31 (spec/20_memory.md R43). -/
theorem isWide_iff (h : Half) : isWide h = true ↔ 29 ≤ h.toNat / 2048 := by
  have hx := h.isLt
  have top : (h.extractLsb' 11 5).toNat = h.toNat / 2048 := by
    rw [BitVec.extractLsb'_toNat, Nat.shiftRight_eq_div_pow]
    omega
  have eq_iff : ∀ k : BitVec 5, (h.extractLsb' 11 5 == k) = true ↔ h.toNat / 2048 = k.toNat :=
    fun k => by rw [beq_iff_eq, ← BitVec.toNat_inj, top]
  have e29 := eq_iff 0b11101#5
  have e30 := eq_iff 0b11110#5
  have e31 := eq_iff 0b11111#5
  unfold isWide
  rw [Bool.or_eq_true, Bool.or_eq_true, e29, e30, e31]
  show (h.toNat / 2048 = 29 ∨ h.toNat / 2048 = 30) ∨ h.toNat / 2048 = 31 ↔ _
  omega

/-- What the A32 fetch answers. -/
theorem fetchA32_ok (s : State) (raw : RawInstr) :
    fetchA32 s = .ok raw ↔ s.aligned = true ∧ ∃ w, raw = .word w ∧ s.mem.read32 s.pc.toNat = some w := by
  unfold fetchA32
  cases s.aligned
  · simp
  · cases s.mem.read32 s.pc.toNat <;> simp [eq_comm]

/-- What the T32 fetch answers. -/
theorem fetchT32_ok (s : State) (raw : RawInstr) :
    fetchT32 s = .ok raw ↔ s.aligned = true ∧ s.itstate = 0#8
      ∧ ∃ hw1, s.mem.read16 s.pc.toNat = some hw1
        ∧ ((isWide hw1 = false ∧ raw = .half hw1)
          ∨ (isWide hw1 = true ∧ ∃ hw2, s.mem.read16 (s.pc.toNat + 2) = some hw2
            ∧ raw = .word (hw1 ++ hw2))) := by
  unfold fetchT32
  cases s.aligned
  · simp
  · by_cases hit : s.itstate = 0#8
    · cases s.mem.read16 s.pc.toNat with
      | none => simp [hit]
      | some hw1 =>
        cases hw : isWide hw1
        · simpa [hit, hw] using eq_comm
        · cases s.mem.read16 (s.pc.toNat + 2) <;> simp [hit, hw, eq_comm (b := raw)]
    · simp [hit]

/-- Alignment as the statements speak of it. -/
theorem not_misaligned_iff (s : State) : ¬ misaligned s ↔ s.aligned = true := by
  unfold misaligned
  cases h : s.iset
  · simp [aligned_a32 s h]
  · simp [aligned_t32 s h]

/-- What the fetch refuses, and when (spec/20_memory.md R42 to R44). -/
theorem fetch_error (s : State) (r : Refusal) : fetch s = .error r ↔
    (r = .fetchMisaligned ∧ misaligned s)
      ∨ (r = .inITBlock ∧ ¬ misaligned s ∧ s.iset = .t32 ∧ s.itstate ≠ 0#8)
      ∨ (r = .fetchUnmapped ∧ ¬ misaligned s ∧ (s.iset = .t32 → s.itstate = 0#8)
        ∧ unmappedAtPc s) := by
  have hm : misaligned s ↔ s.aligned = false := by rw [← not_iff_not, not_misaligned_iff]; simp
  rw [not_misaligned_iff, hm]
  unfold fetch unmappedAtPc
  cases h : s.iset with
  | a32 =>
    show fetchA32 s = _ ↔ _
    unfold fetchA32
    cases s.aligned
    · simp [eq_comm (b := r)]
    · cases s.mem.read32 s.pc.toNat <;> simp [eq_comm (b := r)]
  | t32 =>
    show fetchT32 s = _ ↔ _
    unfold fetchT32
    cases s.aligned
    · simp [eq_comm (b := r)]
    · by_cases hit : s.itstate = 0#8
      · cases s.mem.read16 s.pc.toNat with
        | none => simp [hit, eq_comm (b := r)]
        | some hw1 =>
          have hwide := isWide_iff hw1
          cases hw : isWide hw1 with
          | false =>
            rw [hw] at hwide
            simp only [Bool.false_eq_true, false_iff, Nat.not_le] at hwide
            simp [hit, hw]
            intro _ h29
            omega
          | true =>
            rw [hw] at hwide
            simp only [true_iff] at hwide
            cases s.mem.read16 (s.pc.toNat + 2) <;> simp [hit, hw, hwide, eq_comm (b := r)]
      · simp [hit, eq_comm (b := r)]

/-- What the decoder refuses, and when, by fields (spec/30_encoding.md R66). -/
theorem decode_error (iset : ISet) (raw : RawInstr) (e : DecodeError) : decode iset raw = .error e ↔
    (e = .notInScope ∧ ¬ uxtbPattern iset raw)
      ∨ (e = .unpredictableSBZ ∧ uxtbPattern iset raw ∧ sbzSet iset raw)
      ∨ (e = .unpredictableR15 ∧ uxtbPattern iset raw ∧ ¬ sbzSet iset raw
        ∧ r15Fields iset raw) := by
  rcases iset with _ | _ <;> rcases raw with h | w
  · simp [decode, uxtbPattern, eq_comm (b := e)]
  · show decodeA1 w = _ ↔ _
    simp only [uxtbPattern, ← matchesA1_iff, sbzSet, r15Fields]
    rw [← namesR15_fields]
    unfold decodeA1
    cases hm : matchesA1 w with
    | false => simp [eq_comm (b := e)]
    | true =>
      have hsbz := strictA1_iff w hm
      obtain ⟨c, hc⟩ := condOfField_isSome _ ((matchesA1_iff w).mp hm).1
      cases hs : strictA1 w with
      | false =>
        rw [hs] at hsbz
        simp only [Bool.false_eq_true, false_iff] at hsbz
        simp [hsbz, eq_comm (b := e)]
      | true =>
        rw [hs] at hsbz
        simp only [true_iff] at hsbz
        cases h15 : namesR15 (regOfField (w.extractLsb' 12 4)) (regOfField (w.extractLsb' 0 4)) <;>
          simp [hsbz, h15, hc, eq_comm (b := e)]
  · show decodeT1 h = _ ↔ _
    simp only [uxtbPattern, ← matchesT1_iff, sbzSet, r15Fields]
    unfold decodeT1
    cases matchesT1 h <;> simp [eq_comm (b := e)]
  · show decodeT2 w = _ ↔ _
    simp only [uxtbPattern, ← matchesT2_iff, sbzSet, r15Fields]
    rw [← namesR15_fields]
    unfold decodeT2
    cases hm : matchesT2 w with
    | false => simp [eq_comm (b := e)]
    | true =>
      have hsbz := strictT2_iff w hm
      cases hs : strictT2 w with
      | false =>
        rw [hs] at hsbz
        simp only [Bool.false_eq_true, false_iff] at hsbz
        simp [hsbz, eq_comm (b := e)]
      | true =>
        rw [hs] at hsbz
        simp only [true_iff] at hsbz
        cases h15 : namesR15 (regOfField (w.extractLsb' 8 4)) (regOfField (w.extractLsb' 0 4)) <;>
          simp [hsbz, h15, eq_comm (b := e)]

/-- What is true of an instruction the decoder answers: it has the length of its bits, and none of the
grounds of a refusal holds of them. -/
theorem decode_ok_facts (iset : ISet) (raw : RawInstr) (i : Instr) (h : decode iset raw = .ok i) :
    i.len = raw.len ∧ uxtbPattern iset raw ∧ ¬ sbzSet iset raw ∧ ¬ r15Fields iset raw := by
  have none : ∀ e, ¬ decode iset raw = .error e := fun e he => by rw [h] at he; cases he
  have hp : uxtbPattern iset raw := by
    by_contra hc; exact none _ ((decode_error iset raw _).mpr (.inl ⟨rfl, hc⟩))
  have hs : ¬ sbzSet iset raw := fun hc =>
    none _ ((decode_error iset raw _).mpr (.inr (.inl ⟨rfl, hp, hc⟩)))
  refine ⟨?_, hp, hs, fun hc => none _ ((decode_error iset raw _).mpr (.inr (.inr ⟨rfl, hp, hs, hc⟩)))⟩
  rcases iset with _ | _ <;> rcases raw with x | x
  · exact hp.elim
  · obtain ⟨-, -, -, c, -, rfl⟩ := (decodeA1_ok x i).mp h; rfl
  · obtain ⟨-, rfl⟩ := (decodeT1_ok x i).mp h; rfl
  · obtain ⟨-, -, -, rfl⟩ := (decodeT2_ok x i).mp h; rfl

/-- A step goes on or is refused: there is no fault. -/
theorem step_cases (s : State) : (∃ t, step s = .next t) ∨ ∃ r, step s = .refused r := by
  cases h : step s with
  | next t => exact .inl ⟨t, rfl⟩
  | fault f => nomatch f
  | refused r => exact .inr ⟨r, rfl⟩

/-- A step gives a next state exactly when an instruction is fetched and decoded and its execution
gives that state. -/
theorem step_next (s t : State) : step s = .next t ↔ ∃ i, fetchDecode s = .ok i ∧ exec i s = .next t := by
  unfold step
  cases fetchDecode s <;> simp

/-- A step is refused by the fetch, the decoder or the execution. -/
theorem step_refused (s : State) (r : Refusal) :
    step s = .refused r ↔ fetchDecode s = .error r ∨ ∃ i, fetchDecode s = .ok i ∧ exec i s = .refused r := by
  unfold step
  cases fetchDecode s <;> simp

/-- Fetch and decode, put together. -/
theorem fetchDecode_ok (s : State) (i : Instr) :
    fetchDecode s = .ok i ↔ ∃ raw, fetch s = .ok raw ∧ decode s.iset raw = .ok i := by
  unfold fetchDecode
  cases fetch s with
  | error r => simp
  | ok raw => cases h : decode s.iset raw <;> simp [h]

/-- A next state of a step is `uxtbNext` of the runnable instruction at pc. -/
theorem step_next_uxtb (s t : State) (h : step s = .next t) :
    ∃ i, fetchDecode s = .ok i ∧ Runnable i s ∧ t = uxtbNext i s := by
  obtain ⟨i, hd, he⟩ := (step_next s t).mp h
  exact ⟨i, hd, exec_next i s t he⟩

/-- The fetch depends on pc, iset, itstate and the mapped bytes alone. -/
theorem fetch_congr (s t : State) (hpc : s.pc = t.pc) (hi : s.iset = t.iset)
    (hit : s.itstate = t.itstate) (hm : ∀ a, s.mem.read a = t.mem.read a) : fetch s = fetch t := by
  have ha : s.aligned = t.aligned := by unfold State.aligned; rw [hpc, hi]
  unfold fetch fetchA32 fetchT32
  rw [ha, hpc, hi, hit, read16_congr _ _ hm, read16_congr _ _ hm, read32_congr _ _ hm]

/-- So does fetching and decoding. -/
theorem fetchDecode_congr (s t : State) (hpc : s.pc = t.pc) (hi : s.iset = t.iset)
    (hit : s.itstate = t.itstate) (hm : ∀ a, s.mem.read a = t.mem.read a) :
    fetchDecode s = fetchDecode t := by
  simp only [fetchDecode, fetch_congr s t hpc hi hit hm, hi]

end Sys2Proof.Machine
end

