-- ==== Sys2Proof/Tests/Slice0.lean ====
section
/-! SUPPORT. The model's own tests: words written out from the encodings of spec/30_encoding.md, single
steps with the expected results of spec/95_test_vectors.md, and for every statement with hypotheses a
witness that meets them. -/

namespace Sys2Proof.Tests

open Sys2Proof.Machine

/-! ### Helpers -/

/-- Flags N, Z, C, V with DIT 0. -/
def flags (n z c v : Bool) : Cpsr := { n := n, z := z, c := c, v := v, dit := false }

/-- A small state: all registers 0 but `r`, all flags 0, itstate 0, `bytes` mapped from `pc` on. -/
def small (iset : ISet) (pc : Nat) (bytes : List Byte) (r : RegNum) (v : Word) : State where
  regs := (Vector.replicate 16 0#32).set r v
  pc := BitVec.ofNat 32 pc
  cpsr := flags false false false false
  iset := iset
  itstate := 0#8
  mem := Memory.writeBytes [] pc bytes

/-- The outcome is a next state with this register value and this pc. -/
def gives (o : StepOutcome) (r : RegNum) (v pc : Word) : Bool :=
  match o with
  | .next t => t.reg r == v && t.pc == pc
  | .fault _ => false
  | .refused _ => false

/-- The outcome is some next state. -/
def goesOn (o : StepOutcome) : Bool :=
  match o with
  | .next _ => true
  | .fault _ => false
  | .refused _ => false

/-- The outcome is this refusal. -/
def refuses (o : StepOutcome) (r : Refusal) : Bool :=
  match o with
  | .next _ => false
  | .fault _ => false
  | .refused r' => r' == r

/-! ### Well-formedness: an ill-formed term for each check (spec/10_state.md R21) -/

theorem test_wf_a1_rd15 : (Instr.uxtbA1 .al 15 .ror0 1).wf = false := by decide
theorem test_wf_a1_rm15 : (Instr.uxtbA1 .al 0 .ror0 15).wf = false := by decide
theorem test_wf_t2_rd15 : (Instr.uxtbT2 15 .ror0 1).wf = false := by decide
theorem test_wf_t2_rm15 : (Instr.uxtbT2 0 .ror0 15).wf = false := by decide
/-- Register 13 is an ordinary operand (spec/90_conflicts.md C5). -/
theorem test_wf_r13 : (Instr.uxtbA1 .al 13 .ror0 13).wf && (Instr.uxtbT2 13 .ror0 13).wf = true := by
  decide

/-! ### Decoding, bit by bit -/

/-- R61: cond 1110, 0110 1110 1111, Rd 0010, rotate 01, (0)(0), 0111, Rm 0011. -/
theorem test_decode_a1 :
    decode .a32 (.word 0b1110_0110_1110_1111_0010_01_00_0111_0011#32)
      = .ok (.uxtbA1 .al 2 .ror8 3) := by decide

/-- R61 with cond 0000 and the highest register permitted, rotate 11. -/
theorem test_decode_a1_eq :
    decode .a32 (.word 0b0000_0110_1110_1111_1110_11_00_0111_1100#32)
      = .ok (.uxtbA1 .eq 14 .ror24 12) := by decide

/-- R62: 1011 0010 11, Rm 101, Rd 011. -/
theorem test_decode_t1 :
    decode .t32 (.half 0b1011_0010_11_101_011#16) = .ok (.uxtbT1 5 3) := by decide

/-- R63: 1111 1010 0101 1111 | 1111, Rd 1010, 1(0), rotate 11, Rm 1011. -/
theorem test_decode_t2 :
    decode .t32 (.word 0b1111_1010_0101_1111_1111_1010_10_11_1011#32)
      = .ok (.uxtbT2 10 .ror24 11) := by decide

/-- The near misses of spec/95_test_vectors.md: A1-19, A1-20, A1-22, A1-23, A1-24. -/
theorem test_decode_a1_near :
    decode .a32 (.word 0xE6EF0271#32) = .error .unpredictableSBZ
    ∧ decode .a32 (.word 0xE6EF0171#32) = .error .unpredictableSBZ
    ∧ decode .a32 (.word 0xF6EF0071#32) = .error .notInScope
    ∧ decode .a32 (.word 0xE6FF0071#32) = .error .notInScope
    ∧ decode .a32 (.word 0xE6E10071#32) = .error .notInScope := by decide

/-- T1-5, T1-6 (B = 0, U = 0), and the same bits in A32, where no row is 16 bits wide. -/
theorem test_decode_t1_near :
    decode .t32 (.half 0xB280#16) = .error .notInScope
    ∧ decode .t32 (.half 0xB240#16) = .error .notInScope
    ∧ decode .a32 (.half 0xB2C8#16) = .error .notInScope := by decide

/-- T2-7 to T2-12. -/
theorem test_decode_t2_near :
    decode .t32 (.word 0xFA5FF0C1#32) = .error .unpredictableSBZ
    ∧ decode .t32 (.word 0xFA5FFF81#32) = .error .unpredictableR15
    ∧ decode .t32 (.word 0xFA5FF08F#32) = .error .unpredictableR15
    ∧ decode .t32 (.word 0xFA5FF001#32) = .error .notInScope
    ∧ decode .t32 (.word 0xFA50F081#32) = .error .notInScope
    ∧ decode .t32 (.word 0xFA4FF081#32) = .error .notInScope := by decide

/-- The words of the opcode table's rows, all operand fields 0, as the host numbers them. -/
theorem test_table_words :
    decodeTableWord 32 0x06EF0070 = some (.uxtbA1 .eq 0 .ror0 0)
    ∧ decodeTableWord 16 0xB2C0 = some (.uxtbT1 0 0)
    ∧ decodeTableWord 32 0xFA5FF080 = some (.uxtbT2 0 .ror0 0) := by decide

/-- `step` runs each of them as the first instruction after reset. -/
theorem test_table_words_run :
    gives (step (State.reset.withFetchWord 32 0x06EF0070)) 0 0 4
    ∧ gives (step (State.reset.withFetchWord 16 0xB2C0)) 0 0 2
    ∧ gives (step (State.reset.withFetchWord 32 0xFA5FF080)) 0 0 4 := by decide

/-! ### One step each, expected results from spec/95_test_vectors.md -/

/-- A1-5: source and destination the same, no sign extension. -/
theorem test_a1_same_register :
    gives (step (small .a32 0x1000 [0x75, 0x50, 0xEF, 0xE6] 5 0xFFFFFF80#32)) 5 0x80#32 0x1004#32 := by
  decide

/-- A1-10: EQ with Z = 0 only advances. -/
theorem test_a1_condition_fails :
    gives (step (small .a32 0x1000 [0x70, 0x00, 0xEF, 0x06] 0 0xABCDEF12#32)) 0 0xABCDEF12#32 0x1004#32 := by
  decide

/-- T1-10: the last halfword but one of the address space. -/
theorem test_t1_near_top :
    gives (step (small .t32 0xFFFFFFFC [0xC8, 0xB2] 1 0x1234#32)) 0 0x34#32 0xFFFFFFFE#32 := by decide

/-- T1-2: R7 from R7. -/
theorem test_t1_same_register :
    gives (step (small .t32 0x1000 [0xFF, 0xB2] 7 0x17F#32)) 7 0x7F#32 0x1002#32 := by decide

/-- T2-2, with its halfwords in memory order. -/
theorem test_t2_ror8 :
    gives (step (small .t32 0x1000 [0x5F, 0xFA, 0x99, 0xF8] 9 0xDEADBEEF#32)) 8 0xBE#32 0x1004#32 := by
  decide

/-- T2-6: a 32-bit instruction at an address that is only 2-byte aligned. -/
theorem test_t2_two_byte_aligned :
    gives (step (small .t32 0x1002 [0x5F, 0xFA, 0x81, 0xF0] 1 0xFF00#32)) 0 0#32 0x1006#32 := by decide

/-- One run for each refusal, in the order of spec/60_exceptions.md R114: A1-25, T1-8, A1-27, A1-22,
A1-21 (the should-be-zero bit before register 15), A1-18 (register 15 before the condition), A1-26. -/
theorem test_refusals :
    refuses (step (small .a32 0x1002 [0x71, 0x00, 0xEF, 0xE6] 1 0#32)) .fetchMisaligned
    ∧ refuses (step { small .t32 0x1000 [0xC8, 0xB2] 1 0#32 with itstate := 0b00001000#8 }) .inITBlock
    ∧ refuses (step (small .a32 0x1000 [0x71, 0x00] 1 0#32)) .fetchUnmapped
    ∧ refuses (step (small .a32 0x1000 [0x71, 0x00, 0xEF, 0xF6] 1 0#32)) .notInScope
    ∧ refuses (step (small .a32 0x1000 [0x71, 0xF2, 0xEF, 0xE6] 1 0#32)) .unpredictableSBZ
    ∧ refuses (step (small .a32 0x1000 [0x71, 0xF0, 0xEF, 0x06] 1 0#32)) .unpredictableR15
    ∧ refuses (step (small .a32 0xFFFFFFFC [0x71, 0x00, 0xEF, 0xE6] 1 0#32)) .pcWrap := by decide

/-- T1-9 and T2-13 at the last halfword; the T32 twin of register 15 and the should-be-zero bit. -/
theorem test_refusals_t32 :
    refuses (step (small .t32 0xFFFFFFFE [0xC8, 0xB2] 1 0#32)) .pcWrap
    ∧ refuses (step (small .t32 0xFFFFFFFE [0x5F, 0xFA] 1 0#32)) .fetchUnmapped
    ∧ refuses (step (small .t32 0x1001 [0xC8, 0xB2] 1 0#32)) .fetchMisaligned
    ∧ refuses (step (small .t32 0x1000 [0x5F, 0xFA, 0xC1, 0xF0] 1 0#32)) .unpredictableSBZ
    ∧ refuses (step (small .t32 0x1000 [0x5F, 0xFA, 0x81, 0xFF] 1 0#32)) .unpredictableR15
    ∧ refuses (step (small .t32 0x1000 [0x00, 0xBF] 1 0#32)) .notInScope := by decide

/-- R79 and R73 to R75: the assembly column of A1-2, A1-10, T1-3, T2-1 and T2-2. -/
theorem test_asm_text :
    asmText (asmOfInstr (.uxtbA1 .al 2 .ror8 3)) = "UXTB R2, R3, ROR #8"
    ∧ asmText (asmOfInstr (.uxtbA1 .eq 0 .ror0 0)) = "UXTBEQ R0, R0"
    ∧ asmText (asmOfInstr (.uxtbT1 5 3)) = "UXTB R3, R5"
    ∧ asmText (asmOfInstr (.uxtbT2 0 .ror0 1)) = "UXTB.W R0, R1"
    ∧ asmText (asmOfInstr (.uxtbT2 8 .ror8 9)) = "UXTB R8, R9, ROR #8" := by decide

/-- Second names: LO is CC (R69), LR is R14 (spec/10_state.md R22). -/
theorem test_asm_names : condOfSuffix "LO" = some .cc ∧ condOfSuffix "LE" = some .le
    ∧ regOfName "LR" = some 14 ∧ regOfName "R10" = some 10 := by decide

/-! ### Witnesses: states and operands that meet the hypotheses of the statements -/

/-- A1 `UXTB R0, R1` at 0x1000. -/
def a1 : State := small .a32 0x1000 [0x71, 0x00, 0xEF, 0xE6] 1 0x12345680#32

/-- T1 `UXTB R0, R1` at 0x1000. -/
def t1 : State := small .t32 0x1000 [0xC8, 0xB2] 1 0x12345680#32

/-- T2 `UXTB.W R0, R1` at 0x1000. -/
def t2 : State := small .t32 0x1000 [0x5F, 0xFA, 0x81, 0xF0] 1 0x12345680#32

/-- DecodeOfEncode, DecodeOfBytes, PrintedLineAssemblesBack: a well-formed term of each constructor, at
the ends of the register ranges. -/
theorem witness_wf : (Instr.uxtbA1 .le 14 .ror24 0).wf = true ∧ (Instr.uxtbT1 7 0).wf = true
    ∧ (Instr.uxtbT2 14 .ror24 0).wf = true := by decide

/-- EncodeOfDecode, DecodeFragments: a word the decoder accepts, of each kind. -/
theorem witness_decode_ok : decode .a32 (.word 0xE6EF0071#32) = .ok (.uxtbA1 .al 0 .ror0 1)
    ∧ decode .t32 (.half 0xB2C8#16) = .ok (.uxtbT1 1 0)
    ∧ decode .t32 (.word 0xFA5FF081#32) = .ok (.uxtbT2 0 .ror0 1) := by decide

/-- DecodeFragments, last clause: words with the fixed fields and should-be-zero bits 0, on both sides
of the test on register 15, of A1 and T2. -/
theorem witness_pattern_words :
    (uxtbPattern .a32 (.word 0xE6EF0071#32) ∧ ¬ sbzSet .a32 (.word 0xE6EF0071#32)
      ∧ ¬ r15Fields .a32 (.word 0xE6EF0071#32))
    ∧ (uxtbPattern .a32 (.word 0xE6EFF071#32) ∧ ¬ sbzSet .a32 (.word 0xE6EFF071#32)
      ∧ r15Fields .a32 (.word 0xE6EFF071#32))
    ∧ (uxtbPattern .t32 (.word 0xFA5FFE8E#32) ∧ ¬ sbzSet .t32 (.word 0xFA5FFE8E#32)
      ∧ ¬ r15Fields .t32 (.word 0xFA5FFE8E#32))
    ∧ uxtbPattern .t32 (.word 0xFA5FF08F#32) ∧ ¬ sbzSet .t32 (.word 0xFA5FF08F#32)
      ∧ r15Fields .t32 (.word 0xFA5FF08F#32) := by
  simp [uxtbPattern, sbzSet, r15Fields]

/-- The fetch goes through in the three small states. -/
theorem witness_fetchable : fetchable a1 (.word 0xE6EF0071#32) ∧ fetchable t1 (.half 0xB2C8#16)
    ∧ fetchable t2 (.word 0xFA5FF081#32) :=
  ⟨⟨(not_misaligned_iff _).mpr (by decide), fun _ => by decide,
      show a1.mem.read32 a1.pc.toNat = some 0xE6EF0071#32 by decide⟩,
    ⟨(not_misaligned_iff _).mpr (by decide), fun _ => by decide,
      show t1.mem.read16 t1.pc.toNat = some 0xB2C8#16 ∧ (0xB2C8#16).toNat / 2048 < 29 by decide⟩,
    ⟨(not_misaligned_iff _).mpr (by decide), fun _ => by decide,
      show t2.mem.read16 t2.pc.toNat = some ((0xFA5FF081#32).extractLsb' 16 16)
        ∧ 29 ≤ ((0xFA5FF081#32).extractLsb' 16 16).toNat / 2048
        ∧ t2.mem.read16 (t2.pc.toNat + 2) = some ((0xFA5FF081#32).extractLsb' 0 16) by decide⟩⟩

/-- ShouldBeZeroBits: a fetched word that matches with bit 8 set. -/
theorem witness_ShouldBeZeroBits :
    fetchable (small .a32 0x1000 [0x71, 0x01, 0xEF, 0xE6] 1 0#32) (.word 0xE6EF0171#32)
    ∧ uxtbPattern .a32 (.word 0xE6EF0171#32) ∧ sbzSet .a32 (.word 0xE6EF0171#32) := by
  refine ⟨⟨(not_misaligned_iff _).mpr (by decide), fun _ => by decide, ?_⟩, ?_, ?_⟩
  · show Memory.read32 _ _ = _
    decide
  · simp [uxtbPattern]
  · simp [sbzSet]

/-- NotInScopeExactly: a fetched word on each side (the other side is `witness_fetchable`). -/
theorem witness_NotInScopeExactly :
    fetchable (small .a32 0x1000 [0x71, 0x00, 0xEF, 0xF6] 1 0#32) (.word 0xF6EF0071#32)
    ∧ ¬ uxtbPattern .a32 (.word 0xF6EF0071#32) ∧ uxtbPattern .a32 (.word 0xE6EF0071#32) := by
  refine ⟨⟨(not_misaligned_iff _).mpr (by decide), fun _ => by decide, ?_⟩, ?_, ?_⟩
  · show Memory.read32 _ _ = _
    decide
  · simp [uxtbPattern]
  · simp [uxtbPattern]

/-- AssemblerSelectsEncoding: operands that fit T1 at its edge, and operands just beyond it. -/
theorem witness_AssemblerSelectsEncoding :
    ((7 : RegNum) ≠ 15 ∧ (7 : RegNum).val < 8 ∧ Rotation.ror0 = .ror0)
    ∧ ((8 : RegNum) ≠ 15 ∧ ¬ (8 : RegNum).val < 8) ∧ Rotation.ror8 ≠ .ror0 := by decide

/-- MemReadLittleEndian, last clause, and FirstGroundDecides: an unmapped byte in A32 and, beyond the
top of the address space, in T32. -/
theorem witness_unmapped :
    (¬ misaligned (small .a32 0x1000 [0x71, 0x00] 1 0#32)
      ∧ unmappedAtPc (small .a32 0x1000 [0x71, 0x00] 1 0#32))
    ∧ ¬ misaligned (small .t32 0xFFFFFFFE [0x5F, 0xFA] 1 0#32)
      ∧ unmappedAtPc (small .t32 0xFFFFFFFE [0x5F, 0xFA] 1 0#32) := by
  refine ⟨⟨(not_misaligned_iff _).mpr (by decide), ?_⟩, (not_misaligned_iff _).mpr (by decide),
    .inr ⟨0xFA5F#16, ?_, by decide, ?_⟩⟩
  · show Memory.read32 _ _ = none
    decide
  · decide
  · decide

/-- MemReadLittleEndian, first clauses: the last halfword and the last word of the address space. -/
theorem witness_read_at_top :
    (small .t32 0xFFFFFFFE [0xC8, 0xB2] 1 0#32).mem.read16 0xFFFFFFFE = some 0xB2C8#16
    ∧ (small .a32 0xFFFFFFFC [0x71, 0x00, 0xEF, 0xE6] 1 0#32).mem.read32 0xFFFFFFFC
      = some 0xE6EF0071#32 := by decide

/-- StepRunsDecoded: a state whose fetch and decode go through, for each encoding. -/
theorem witness_StepRunsDecoded :
    (fetch a1 = .ok (.word 0xE6EF0071#32) ∧ decode a1.iset (.word 0xE6EF0071#32) = .ok (.uxtbA1 .al 0 .ror0 1))
    ∧ (fetch t1 = .ok (.half 0xB2C8#16) ∧ decode t1.iset (.half 0xB2C8#16) = .ok (.uxtbT1 1 0))
    ∧ fetch t2 = .ok (.word 0xFA5FF081#32) ∧ decode t2.iset (.word 0xFA5FF081#32) = .ok (.uxtbT2 0 .ror0 1) := by
  decide

/-- StepRunsBytesAtPc: the bytes of a well-formed instruction at pc, up to the very top. -/
theorem witness_StepRunsBytesAtPc :
    ¬ misaligned (small .a32 0xFFFFFFFC [0x71, 0x00, 0xEF, 0xE6] 1 0#32)
    ∧ (0xFFFFFFFC + (Instr.uxtbA1 .al 0 .ror0 1).len ≤ 4294967296)
    ∧ (small .a32 0xFFFFFFFC [0x71, 0x00, 0xEF, 0xE6] 1 0#32).mem.readBytes 0xFFFFFFFC 4
      = some (layout .a32 (encode (.uxtbA1 .al 0 .ror0 1))) :=
  ⟨(not_misaligned_iff _).mpr (by decide), by decide, by decide⟩

/-- ItStateRule, FlagsOnlyReadByCondition, DitInert and the others about a next state: each small state
steps, an A32 and a T32 one among them. -/
theorem witness_steps : gives (step a1) 0 0x80#32 0x1004#32 ∧ gives (step t1) 0 0x80#32 0x1002#32
    ∧ gives (step t2) 0 0x80#32 0x1004#32 ∧ a1.iset = .a32 ∧ t1.iset = .t32 := by decide

/-- UxtbOperation: its three cases meet at pc + len = 2^32; the condition passes for AL and fails for EQ
with Z = 0. -/
theorem witness_UxtbOperation :
    (4294967296 ≤ (0xFFFFFFFC#32).toNat + (Instr.uxtbA1 .al 0 .ror0 1).len)
    ∧ ((0xFFFFFFF8#32).toNat + (Instr.uxtbA1 .al 0 .ror0 1).len < 4294967296)
    ∧ conditionPassed (instrCond (.uxtbA1 .al 0 .ror0 1)) a1.cpsr = true
    ∧ conditionPassed (instrCond (.uxtbA1 .eq 0 .ror0 1)) a1.cpsr = false := by decide

/-- UxtbA1Completes and UxtbA1ConditionFails. -/
theorem witness_UxtbA1 : (14 : RegNum) ≠ 15 ∧ (13 : RegNum) ≠ 15 ∧ a1.pc.toNat + 4 < 4294967296
    ∧ conditionPassed .al a1.cpsr = true ∧ conditionPassed .eq a1.cpsr = false := by decide

/-- UxtbT1Completes, UxtbT2Completes, EncodingsAgree. -/
theorem witness_UxtbT32 : t1.itstate = 0#8 ∧ t1.pc.toNat + 2 < 4294967296
    ∧ t2.pc.toNat + 4 < 4294967296 ∧ conditionPassed .al t2.cpsr = true := by decide

/-- A1WordToEffect: its hypotheses, for the word of each branch (cond 1111, bit 9, Rd = 15, and the one
that executes); the wrap branch is the last case of `test_refusals`. -/
theorem witness_A1WordToEffect :
    a1.iset = .a32 ∧ a1.pc.toNat % 4 = 0 ∧ a1.mem.read32 a1.pc.toNat = some 0xE6EF0071#32
    ∧ [0xF6EF0071#32, 0xE6EF0271#32, 0xE6EFF071#32, 0xE6EF0071#32].all (fun w =>
        w.extractLsb' 16 12 == 0b011011101111#12 && w.extractLsb' 4 4 == 0b0111#4) := by decide

/-- T1HalfwordToEffect: its hypotheses, and at the last halfword, where it wraps. -/
theorem witness_T1HalfwordToEffect :
    t1.iset = .t32 ∧ t1.pc.toNat % 2 = 0 ∧ t1.itstate = 0#8
    ∧ t1.mem.read16 t1.pc.toNat = some 0xB2C8#16 ∧ (0xB2C8#16).extractLsb' 6 10 = 0b1011001011#10
    ∧ 4294967296 ≤ (0xFFFFFFFE#32).toNat + 2 ∧ (0xFFFFFFFC#32).toNat + 2 < 4294967296 := by decide

/-- T2HalfwordsToEffect: its hypotheses, for the second halfword of each branch. -/
theorem witness_T2HalfwordsToEffect :
    t2.iset = .t32 ∧ t2.pc.toNat % 2 = 0 ∧ t2.itstate = 0#8
    ∧ t2.mem.read16 t2.pc.toNat = some 0xFA5F#16 ∧ t2.mem.read16 (t2.pc.toNat + 2) = some 0xF081#16
    ∧ [0xF0C1#16, 0xFF81#16, 0xF081#16].all (fun h =>
        h.extractLsb' 12 4 == 0b1111#4 && h.extractLsb' 7 1 == 0b1#1) := by decide

/-- ItBlockRefused. -/
theorem witness_ItBlockRefused : ({ t1 with itstate := 0b00001000#8 } : State).itstate ≠ 0#8 := by decide

/-- UxtbFrame, FlagsOnlyReadByCondition, ResultIsOneByte: each instruction has a next state, with a
condition that passes, and A1 one with a condition that fails. -/
theorem witness_exec_next :
    (∃ t, exec (.uxtbA1 .al 0 .ror0 1) a1 = .next t) ∧ (∃ t, exec (.uxtbA1 .eq 0 .ror0 1) a1 = .next t)
    ∧ (∃ t, exec (.uxtbT1 1 0) t1 = .next t) ∧ ∃ t, exec (.uxtbT2 0 .ror0 1) t2 = .next t :=
  ⟨⟨_, exec_runnable _ _ ⟨by decide, by decide, by decide⟩⟩,
    ⟨_, exec_runnable _ _ ⟨by decide, by decide, by decide⟩⟩,
    ⟨_, exec_runnable _ _ ⟨by decide, by decide, by decide⟩⟩,
    ⟨_, exec_runnable _ _ ⟨by decide, by decide, by decide⟩⟩⟩

/-- FlagsOnlyReadByCondition, last clause: different flags on which a condition agrees. -/
theorem witness_flags_agree :
    conditionPassed .eq (flags true false true true) = conditionPassed .eq a1.cpsr
    ∧ flags true false true true ≠ a1.cpsr := by decide

/-- ResultOfResult: a second UXTB that reads what the first wrote, with rotation 0 and with another. -/
theorem witness_ResultOfResult :
    ∃ t u v, exec (.uxtbA1 .al 0 .ror0 1) a1 = .next t ∧ exec (.uxtbA1 .al 2 .ror0 0) t = .next u
      ∧ exec (.uxtbA1 .al 2 .ror8 0) t = .next v ∧ srcReg (.uxtbA1 .al 2 .ror8 0) = destReg (.uxtbA1 .al 0 .ror0 1)
      ∧ conditionPassed .al t.cpsr = true :=
  ⟨_, _, _, exec_runnable _ _ ⟨by decide, by decide, by decide⟩,
    exec_runnable _ _ ⟨by decide, by decide, by decide⟩,
    exec_runnable _ _ ⟨by decide, by decide, by decide⟩, rfl, rfl⟩

/-- SourceReadFirst: a runnable instruction whose source is its destination. -/
theorem witness_SourceReadFirst : Runnable (.uxtbA1 .al 5 .ror8 5) a1
    ∧ srcReg (.uxtbA1 .al 5 .ror8 5) = destReg (.uxtbA1 .al 5 .ror8 5)
    ∧ conditionPassed (instrCond (.uxtbA1 .al 5 .ror8 5)) a1.cpsr = true := by
  exact ⟨⟨by decide, by decide, by decide⟩, rfl, by decide⟩

/-- PcAdvancesByLength: an instruction at pc that steps, and one at the top that would wrap. -/
theorem witness_PcAdvancesByLength :
    fetchDecode a1 = .ok (.uxtbA1 .al 0 .ror0 1)
    ∧ fetchDecode (small .a32 0xFFFFFFFC [0x71, 0x00, 0xEF, 0xE6] 1 0#32) = .ok (.uxtbA1 .al 0 .ror0 1) := by
  decide

/-- ReadSetDecidesStep: two states that differ in R0, R2, R15 and DIT and agree on what is read. -/
theorem witness_ReadSetDecidesStep :
    let s := ((a1.setReg 0 7#32).setReg 2 9#32).setReg 15 3#32
    let s₂ : State := { s with cpsr := { s.cpsr with dit := true } }
    a1 ≠ s₂ ∧ a1.pc = s₂.pc ∧ a1.iset = s₂.iset ∧ a1.itstate = s₂.itstate ∧ a1.mem = s₂.mem
      ∧ a1.cpsr.n = s₂.cpsr.n ∧ a1.cpsr.z = s₂.cpsr.z ∧ a1.cpsr.c = s₂.cpsr.c ∧ a1.cpsr.v = s₂.cpsr.v
      ∧ fetchDecode a1 = .ok (.uxtbA1 .al 0 .ror0 1) ∧ a1.reg 1 = s₂.reg 1 := by decide

/-- StepKeepsInv: states with the invariant that step, in A32 and, only 2-byte aligned, in T32. -/
theorem witness_StepKeepsInv : Inv a1 ∧ Inv (small .t32 0x1002 [0x5F, 0xFA, 0x81, 0xF0] 1 0#32)
    ∧ goesOn (step a1) ∧ goesOn (step (small .t32 0x1002 [0x5F, 0xFA, 0x81, 0xF0] 1 0#32)) := by
  refine ⟨⟨by decide, by decide, by decide⟩, ⟨by decide, by decide, by decide⟩, by decide, by decide⟩

/-- RunFinalAtEndPc: a run that is final, one that stands at `end_pc`, and one that is refused (A1-17:
Rm = 15). -/
theorem witness_RunFinalAtEndPc :
    runTo 0x1004#32 1 a1 = .final (uxtbNext (.uxtbA1 .al 0 .ror0 1) a1) ∧ a1.pc = 0x1000#32
    ∧ runTo 0x1004#32 1 (small .a32 0x1000 [0x7F, 0x00, 0xEF, 0xE6] 1 0#32)
      = .refused (small .a32 0x1000 [0x7F, 0x00, 0xEF, 0xE6] 1 0#32) .unpredictableR15 := by decide

/-- StepNextOrRefused: a state short of `end_pc` whose step is refused (A1-17: Rm = 15), and the run from
it, which is refused. -/
theorem witness_StepNextOrRefused :
    (small .a32 0x1000 [0x7F, 0x00, 0xEF, 0xE6] 1 0#32).pc ≠ 0x1004#32
    ∧ step (small .a32 0x1000 [0x7F, 0x00, 0xEF, 0xE6] 1 0#32) = .refused .unpredictableR15
    ∧ runTo 0x1004#32 1 (small .a32 0x1000 [0x7F, 0x00, 0xEF, 0xE6] 1 0#32)
      = .refused (small .a32 0x1000 [0x7F, 0x00, 0xEF, 0xE6] 1 0#32) .unpredictableR15 :=
  ⟨by decide, rfl, by decide⟩

/-- LaunchPremisesCarryRun: a launch state with a text of one instruction, and one with none left. -/
theorem witness_LaunchPremisesCarryRun :
    LaunchOk a1 [.uxtbA1 .al 0 .ror0 1] 0x1004#32 ∧ LaunchOk a1 [] 0x1000#32 := by
  refine ⟨⟨by decide, fun _ => by decide, ⟨rfl, rfl, by decide, trivial⟩, by decide⟩,
    ⟨by decide, fun _ => by decide, trivial, by decide⟩⟩

end Sys2Proof.Tests
end

section
/-! PROOF. The state of the machine (spec/10_state.md): what a step that has fetched an instruction does,
what it keeps, and which changes of the state it does not see. -/

namespace Sys2Proof.Machine

/-! ### The instruction at pc -/

/-- A decoded instruction belongs to the instruction set it was decoded in (R66 step 1). -/
theorem decode_ok_iset (iset : ISet) (raw : RawInstr) (i : Instr) (h : decode iset raw = .ok i) :
    i.iset = iset := by
  rcases iset with _ | _ <;> rcases raw with x | x
  · cases h
  · obtain ⟨-, -, -, c, -, rfl⟩ := (decodeA1_ok x i).mp h; rfl
  · obtain ⟨-, rfl⟩ := (decodeT1_ok x i).mp h; rfl
  · obtain ⟨-, -, -, rfl⟩ := (decodeT2_ok x i).mp h; rfl

/-- The decoder has refused register 15, so what it answers is well formed (R66 step 4). -/
theorem decode_ok_wf (iset : ISet) (raw : RawInstr) (i : Instr) (h : decode iset raw = .ok i) :
    i.wf = true := by
  rcases iset with _ | _ <;> rcases raw with x | x
  · cases h
  · obtain ⟨-, -, h15, c, -, rfl⟩ := (decodeA1_ok x i).mp h
    simp [Instr.wf, h15]
  · obtain ⟨-, rfl⟩ := (decodeT1_ok x i).mp h; rfl
  · obtain ⟨-, -, h15, rfl⟩ := (decodeT2_ok x i).mp h
    simp [Instr.wf, h15]

/-- A T32 fetch goes through only outside an IT block (R28, R43). -/
theorem fetch_ok_itstate (s : State) (raw : RawInstr) (h : fetch s = .ok raw) (ht : s.iset = .t32) :
    s.itstate = 0#8 := by
  have hf : fetchT32 s = .ok raw := by simpa only [fetch, ht] using h
  obtain ⟨-, hit, -⟩ := (fetchT32_ok s raw).mp hf
  exact hit

/-- The instruction at pc belongs to the instruction set in use. -/
theorem fetchDecode_iset (s : State) (i : Instr) (h : fetchDecode s = .ok i) : i.iset = s.iset := by
  obtain ⟨raw, -, hd⟩ := (fetchDecode_ok s i).mp h
  exact decode_ok_iset _ raw i hd

/-- The fetch and the decoder have tested everything an instruction needs but the advance of pc. -/
theorem runnable_iff_of_fetchDecode (s : State) (i : Instr) (h : fetchDecode s = .ok i) :
    Runnable i s ↔ s.pc.toNat + i.len < 4294967296 := by
  obtain ⟨raw, hf, hd⟩ := (fetchDecode_ok s i).mp h
  have hit : i.iset = .t32 → s.itstate = 0#8 := fun ht =>
    fetch_ok_itstate s raw hf ((fetchDecode_iset s i h).symm.trans ht)
  exact ⟨fun ⟨_, _, hpc⟩ => hpc, fun hpc => ⟨decode_ok_wf _ raw i hd, hit, hpc⟩⟩

/-- A step that has fetched and decoded executes the instruction. -/
theorem step_of_fetchDecode (s : State) (i : Instr) (h : fetchDecode s = .ok i) : step s = exec i s := by
  simp only [step, h]

/-- A step that has fetched and decoded goes on, unless pc would reach the top (R24). -/
theorem step_of_fetchDecode_of_lt (s : State) (i : Instr) (h : fetchDecode s = .ok i)
    (hpc : s.pc.toNat + i.len < 4294967296) : step s = .next (uxtbNext i s) := by
  rw [step_of_fetchDecode s i h, exec_runnable i s ((runnable_iff_of_fetchDecode s i h).mpr hpc)]

/-- Where pc would reach the top, the step is refused, and for no other reason (R24). -/
theorem step_of_fetchDecode_of_le (s : State) (i : Instr) (h : fetchDecode s = .ok i)
    (hpc : 4294967296 ≤ s.pc.toNat + i.len) : step s = .refused .pcWrap := by
  obtain ⟨raw, hf, hd⟩ := (fetchDecode_ok s i).mp h
  have hn : ¬ Runnable i s := by
    rw [runnable_iff_of_fetchDecode s i h]
    exact Nat.not_lt.mpr hpc
  have hit : ¬ (i.iset = .t32 ∧ s.itstate ≠ 0#8) := fun ⟨ht, h0⟩ =>
    h0 (fetch_ok_itstate s raw hf ((fetchDecode_iset s i h).symm.trans ht))
  rw [step_of_fetchDecode s i h, exec_not_runnable i s hn, if_neg hit, if_pos (decode_ok_wf _ raw i hd)]

/-! ### pc and its alignment -/

/-- Every A32 instruction is a word long. -/
theorem len_of_iset_a32 (i : Instr) (h : i.iset = .a32) : i.len = 4 := by
  cases i with
  | uxtbA1 => rfl
  | uxtbT1 | uxtbT2 => cases h

/-- Every instruction is a whole number of halfwords long. -/
theorem len_even (i : Instr) : i.len % 2 = 0 := by cases i <;> simp

/-- The instruction at pc keeps the invariant: it leaves memory, iset and itstate alone, and its length is
a multiple of the alignment of its instruction set. -/
theorem uxtbNext_keeps_inv (i : Instr) (s : State) (hi : i.iset = s.iset) (hr : Runnable i s)
    (h : Inv s) : Inv (uxtbNext i s) := by
  obtain ⟨hmem, ha32, ht32⟩ := h
  have hpc := uxtbNext_pc_toNat i s hr
  refine ⟨by simpa using hmem, fun hA => ?_, fun hT => ?_⟩
  · rw [uxtbNext_iset] at hA
    have h4 := ha32 hA
    have hlen := len_of_iset_a32 i (hi.trans hA)
    omega
  · rw [uxtbNext_iset] at hT
    obtain ⟨h2, hit⟩ := ht32 hT
    have hlen := len_even i
    exact ⟨by omega, by rw [uxtbNext_itstate, hit]⟩

/-- Settles O41: a next state is that of the instruction at pc, which belongs to iset. -/
theorem stepKeepsInv : Obligations.StepKeepsInv := by
  intro s t hinv h
  obtain ⟨i, hd, hr, rfl⟩ := step_next_uxtb s t h
  exact uxtbNext_keeps_inv i s (fetchDecode_iset s i hd) hr hinv

/-- Settles O37, from the two ways a step goes once it has fetched and decoded. -/
theorem pcAdvancesByLength : Obligations.PcAdvancesByLength := by
  refine ⟨fun s t i hd h => ⟨?_, by cases i <;> rfl⟩, fun s i hd => ⟨fun hpc => ?_, fun h => ?_⟩⟩
  · have hx : exec i s = .next t := step_of_fetchDecode s i hd ▸ h
    obtain ⟨hr, rfl⟩ := exec_next i s t hx
    exact uxtbNext_pc_toNat i s hr
  · exact step_of_fetchDecode_of_le s i hd hpc
  · by_contra hlt
    rw [step_of_fetchDecode_of_lt s i hd (Nat.not_le.mp hlt)] at h
    cases h

/-! ### The frame -/

/-- Where the condition fails, no register is written. -/
theorem uxtbNext_regs_of_failed (i : Instr) (s : State)
    (h : conditionPassed (instrCond i) s.cpsr = false) : (uxtbNext i s).regs = s.regs := by
  simp [uxtbNext, h]

/-- Settles O27, field by field of the one state an execution can give. -/
theorem uxtbFrame : Obligations.UxtbFrame := by
  intro i s t h
  obtain ⟨-, rfl⟩ := exec_next i s t h
  exact ⟨uxtbNext_other i s, uxtbNext_regs_of_failed i s, uxtbNext_cpsr i s, uxtbNext_iset i s,
    uxtbNext_itstate i s, fun a => by rw [uxtbNext_mem]⟩

/-! ### Changes of the state that an execution does not see -/

/-- A change of the state commutes with an execution if it leaves alone what the refusals of exec ask
(pc, and itstate for T32) and commutes with the one next state there can be. -/
theorem exec_commutes (f : State → State) (i : Instr) (s : State) (hpc : (f s).pc = s.pc)
    (hit : i.iset = .t32 → (f s).itstate = s.itstate) (hnext : uxtbNext i (f s) = f (uxtbNext i s)) :
    exec i (f s) = mapNext f (exec i s) := by
  have hrun : Runnable i (f s) ↔ Runnable i s := by
    unfold Runnable
    rw [hpc]
    exact and_congr_right fun _ => and_congr_left fun _ => forall_congr' fun ht => by rw [hit ht]
  by_cases hr : Runnable i s
  · rw [exec_runnable i s hr, exec_runnable i (f s) (hrun.mpr hr), hnext]
    rfl
  · have hground : (i.iset = .t32 ∧ (f s).itstate ≠ 0#8) ↔ (i.iset = .t32 ∧ s.itstate ≠ 0#8) :=
      and_congr_right fun ht => by rw [hit ht]
    rw [exec_not_runnable i s hr, exec_not_runnable i (f s) (mt hrun.mp hr), if_congr hground rfl rfl]
    rfl

/-- A change of the state that the fetch does not see commutes with a step if it commutes with the
execution of the instruction at pc. -/
theorem step_commutes (f : State → State) (s : State) (hd : fetchDecode (f s) = fetchDecode s)
    (he : ∀ i, fetchDecode s = .ok i → exec i (f s) = mapNext f (exec i s)) :
    step (f s) = mapNext f (step s) := by
  cases h : fetchDecode s with
  | ok i => rw [step_of_fetchDecode s i h, step_of_fetchDecode (f s) i (hd.trans h), he i h]
  | error r => simp only [step, hd, h, mapNext]

/-- The next state under other flags, where the condition comes out the same. -/
theorem uxtbNext_setCpsr (i : Instr) (s : State) (f : Cpsr)
    (h : conditionPassed (instrCond i) f = conditionPassed (instrCond i) s.cpsr) :
    uxtbNext i { s with cpsr := f } = { uxtbNext i s with cpsr := f } := by
  unfold uxtbNext
  rw [h]
  split <;> rfl

/-- An execution under other flags, where the condition comes out the same. -/
theorem exec_setCpsr (i : Instr) (s : State) (f : Cpsr)
    (h : conditionPassed (instrCond i) f = conditionPassed (instrCond i) s.cpsr) :
    exec i { s with cpsr := f } = mapNext (fun t => { t with cpsr := f }) (exec i s) :=
  exec_commutes (fun t => { t with cpsr := f }) i s rfl (fun _ => rfl) (uxtbNext_setCpsr i s f h)

/-- A T32 instruction is executed under AL, which passes whatever the flags are (R69). -/
theorem conditionPassed_of_t32 (i : Instr) (f : Cpsr) (h : i.iset = .t32) :
    conditionPassed (instrCond i) f = true := by
  cases i with
  | uxtbA1 => cases h
  | uxtbT1 | uxtbT2 => rfl

/-- Settles O28: flags on which the condition agrees are not seen, and for T1 and T2 it always agrees. -/
theorem flagsOnlyReadByCondition : Obligations.FlagsOnlyReadByCondition := by
  refine ⟨fun i s t h => ?_, fun i s f ht => ?_, exec_setCpsr⟩
  · obtain ⟨-, rfl⟩ := exec_next i s t h
    exact uxtbNext_cpsr i s
  · exact exec_setCpsr i s f (by rw [conditionPassed_of_t32 i _ ht, conditionPassed_of_t32 i _ ht])

/-- No condition reads DIT. -/
theorem conditionPassed_setDit (c : Cond) (f : Cpsr) (b : Bool) :
    conditionPassed c { f with dit := b } = conditionPassed c f := by cases c <;> rfl

/-- The next state under another DIT. -/
theorem uxtbNext_setDit (i : Instr) (s : State) (b : Bool) :
    uxtbNext i { s with cpsr := { s.cpsr with dit := b } }
      = { uxtbNext i s with cpsr := { (uxtbNext i s).cpsr with dit := b } } := by
  rw [uxtbNext_setCpsr i s _ (conditionPassed_setDit (instrCond i) s.cpsr b), uxtbNext_cpsr]

/-- An execution under another DIT. -/
theorem exec_setDit (i : Instr) (s : State) (b : Bool) :
    exec i { s with cpsr := { s.cpsr with dit := b } }
      = mapNext (fun t => { t with cpsr := { t.cpsr with dit := b } }) (exec i s) :=
  exec_commutes (fun t => { t with cpsr := { t.cpsr with dit := b } }) i s rfl (fun _ => rfl)
    (uxtbNext_setDit i s b)

/-- Settles O40: neither the fetch nor a condition reads DIT, and no execution writes it. -/
theorem ditInert : Obligations.DitInert := by
  intro s b
  exact step_commutes (fun t => { t with cpsr := { t.cpsr with dit := b } }) s
    (fetchDecode_congr _ _ rfl rfl rfl fun _ => rfl) fun i _ => exec_setDit i s b

/-! ### itstate -/

/-- Only the fetch answers InITBlock, since the decoder does not know it (R114). -/
theorem fetchDecode_inITBlock (s : State) :
    fetchDecode s = .error .inITBlock ↔ fetch s = .error .inITBlock := by
  unfold fetchDecode
  cases fetch s with
  | error r => simp
  | ok raw =>
    cases hd : decode s.iset raw with
    | ok i => simp [hd]
    | error e => cases e <;> simp [hd, refusalOfDecode]

/-- A step is refused as InITBlock by its fetch alone: exec asks itstate again, but the fetch has then
gone through (log 5). -/
theorem step_inITBlock (s : State) : step s = .refused .inITBlock ↔ fetch s = .error .inITBlock := by
  rw [step_refused, fetchDecode_inITBlock]
  refine or_iff_left fun ⟨i, hd, hx⟩ => ?_
  rw [← step_of_fetchDecode s i hd] at hx
  rcases Nat.lt_or_ge (s.pc.toNat + i.len) 4294967296 with hlt | hle
  · rw [step_of_fetchDecode_of_lt s i hd hlt] at hx; cases hx
  · rw [step_of_fetchDecode_of_le s i hd hle] at hx; cases hx

/-- The fetch answers InITBlock in T32 at an even pc with itstate not 0 (R28, R44). -/
theorem fetch_inITBlock (s : State) : fetch s = .error .inITBlock ↔
    s.iset = .t32 ∧ s.pc.toNat % 2 = 0 ∧ s.itstate ≠ 0#8 := by
  have hground : fetch s = .error .inITBlock ↔ ¬ misaligned s ∧ s.iset = .t32 ∧ s.itstate ≠ 0#8 := by
    simp [fetch_error]
  rw [hground, and_left_comm]
  exact and_congr_right fun ht => and_congr_left fun _ => by rw [not_misaligned_iff, aligned_t32 s ht]

/-- The A32 fetch does not read itstate. -/
theorem fetchDecode_setItstate_a32 (s : State) (it : BitVec 8) (h : s.iset = .a32) :
    fetchDecode { s with itstate := it } = fetchDecode s := by
  obtain ⟨regs, pc, cpsr, iset, itstate, mem⟩ := s
  cases h
  rfl

/-- The next state with another itstate: no execution reads or writes it. -/
theorem uxtbNext_setItstate (i : Instr) (s : State) (it : BitVec 8) :
    uxtbNext i { s with itstate := it } = { uxtbNext i s with itstate := it } := by
  unfold uxtbNext
  dsimp only
  split <;> rfl

/-- An A32 instruction with another itstate. -/
theorem exec_setItstate_a32 (i : Instr) (s : State) (it : BitVec 8) (h : i.iset = .a32) :
    exec i { s with itstate := it } = mapNext (fun t => { t with itstate := it }) (exec i s) :=
  exec_commutes (fun t => { t with itstate := it }) i s rfl (fun ht => nomatch h.symm.trans ht)
    (uxtbNext_setItstate i s it)

/-- Settles O13: InITBlock is the fetch's own refusal, an execution keeps itstate, and A32 does not ask it. -/
theorem itStateRule : Obligations.ItStateRule := by
  refine ⟨fun s => (step_inITBlock s).trans (fetch_inITBlock s), fun s t h => ?_, fun s it ha => ?_⟩
  · obtain ⟨i, -, -, rfl⟩ := step_next_uxtb s t h
    exact uxtbNext_itstate i s
  · exact step_commutes (fun t => { t with itstate := it }) s (fetchDecode_setItstate_a32 s it ha)
      fun i hd => exec_setItstate_a32 i s it ((fetchDecode_iset s i hd).trans ha)

/-! ### Runs -/

/-- What every step keeps holds at any point of a run. -/
theorem runTo_keeps (P : State → Prop) (hstep : ∀ s t, P s → step s = .next t → P t) (endPc : Word)
    (n : Nat) (s : State) (h : P s) : P (runTo endPc n s).state := by
  induction n generalizing s with
  | zero => unfold runTo; split <;> exact h
  | succ n ih =>
    unfold runTo
    split
    · exact h
    · cases hs : step s with
      | next t => exact ih t (hstep s t h hs)
      | fault f => nomatch f
      | refused r => exact h

/-- The instruction at pc has another destination than register 15. -/
theorem step_keeps_reg15 (s t : State) (h : step s = .next t) : t.reg 15 = s.reg 15 := by
  obtain ⟨i, -, ⟨hwf, -, -⟩, rfl⟩ := step_next_uxtb s t h
  obtain ⟨hd, -⟩ := wf_regs_ne_15 i hwf
  exact uxtbNext_other i s 15 hd.symm

/-- Everything but R0 to R14 and pc is the same in the two states. -/
def SameOutsideRegsAndPc (s t : State) : Prop :=
  t.cpsr = s.cpsr ∧ t.iset = s.iset ∧ t.itstate = s.itstate ∧ t.mem = s.mem ∧ t.reg 15 = s.reg 15

theorem SameOutsideRegsAndPc.refl (s : State) : SameOutsideRegsAndPc s s := ⟨rfl, rfl, rfl, rfl, rfl⟩

theorem SameOutsideRegsAndPc.trans {s t u : State} (h : SameOutsideRegsAndPc s t)
    (h' : SameOutsideRegsAndPc t u) : SameOutsideRegsAndPc s u := by
  obtain ⟨hf, hi, hit, hm, h15⟩ := h
  obtain ⟨hf', hi', hit', hm', h15'⟩ := h'
  exact ⟨hf'.trans hf, hi'.trans hi, hit'.trans hit, hm'.trans hm, h15'.trans h15⟩

/-- A step changes nothing but R0 to R14 and pc. -/
theorem step_sameOutsideRegsAndPc (s t : State) (h : step s = .next t) : SameOutsideRegsAndPc s t := by
  have h15 := step_keeps_reg15 s t h
  obtain ⟨i, -, -, rfl⟩ := step_next_uxtb s t h
  exact ⟨uxtbNext_cpsr i s, uxtbNext_iset i s, uxtbNext_itstate i s, uxtbNext_mem i s, h15⟩

/-- Settles O45: every step keeps what it says, so a run does. -/
theorem runChangesOnlyRegsAndPc : Obligations.RunChangesOnlyRegsAndPc := by
  intro endPc n s
  exact runTo_keeps (SameOutsideRegsAndPc s) (fun t u h hs => h.trans (step_sameOutsideRegsAndPc t u hs))
    endPc n s (.refl s)

end Sys2Proof.Machine
end

section
/-! PROOF. Memory and the fetch (spec/20_memory.md): the bytes of a value in memory, the instruction whose
bytes lie at pc, and the refusals of the fetch. -/

namespace Sys2Proof

/-! ### The round trip through bytes -/

/-- The four bytes of a word put together again. -/
theorem le32_bytes (w : Word) :
    le32 (w.extractLsb' 0 8) (w.extractLsb' 8 8) (w.extractLsb' 16 8) (w.extractLsb' 24 8) = w := by
  have h := le32_halves (w.extractLsb' 16 16) (w.extractLsb' 0 16)
  rw [halves_join] at h
  simpa [extract_extract] using h

/-- Decoding an encoding reads every operand back from its field (R61 to R66). -/
theorem decode_encode (i : Instr) (h : i.wf = true) : decode i.iset (encode i) = .ok i := by
  cases i with
  | uxtbA1 c rd rotate rm =>
    obtain ⟨hc, h16, hrd, hro, h8, h4, hrm⟩ := encodeA1_fields c rd rotate rm
    have h15 : namesR15 rd rm = false := by simpa [Instr.wf] using h
    have hm : matchesA1 (encodeA1 c rd rotate rm) = true :=
      (matchesA1_iff _).mpr ⟨hc ▸ condField_ne_1111 c, h16, h4⟩
    refine (decodeA1_ok _ _).mpr ⟨hm, (strictA1_iff _ hm).mpr h8, ?_, c, ?_, ?_⟩ <;>
      simp [hrd, hrm, hc, hro, h15]
  | uxtbT1 rm rd =>
    obtain ⟨h6, hrm, hrd⟩ := encodeT1_fields rm rd
    exact (decodeT1_ok _ _).mpr ⟨(matchesT1_iff _).mpr h6, by simp [hrm, hrd]⟩
  | uxtbT2 rd rotate rm =>
    obtain ⟨h12, hrd, h7, h6, hro, hrm⟩ := encodeT2_fields rd rotate rm
    have h15 : namesR15 rd rm = false := by simpa [Instr.wf] using h
    have hm : matchesT2 (encodeT2 rd rotate rm) = true := (matchesT2_iff _).mpr ⟨h12, h7⟩
    refine (decodeT2_ok _ _).mpr ⟨hm, (strictT2_iff _ hm).mpr h6, ?_, ?_⟩ <;>
      simp [hrd, hrm, hro, h15]

/-- The bytes of an encoding are read as that encoding: its first halfword says its width (R43). -/
theorem rawOfBytes_encode (i : Instr) (rest : List Byte) :
    rawOfBytes i.iset (layout i.iset (encode i) ++ rest) = some (encode i, rest) := by
  cases i with
  | uxtbA1 c rd rotate rm => exact rawOfBytes_layout _ _ rest trivial
  | uxtbT1 rm rd => exact rawOfBytes_layout _ _ rest (isWide_encodeT1 rm rd)
  | uxtbT2 rd rotate rm => exact rawOfBytes_layout _ _ rest (isWide_encodeT2 rd rotate rm)

/-- Settles O3: the bytes are read as the encoding, which decodes to the instruction. -/
theorem decodeOfBytes : Obligations.DecodeOfBytes := by
  intro i rest h
  simp only [decodeBytes, rawOfBytes_encode, decode_encode i h]

end Sys2Proof

namespace Sys2Proof.Machine

/-! ### Memory reads -/

/-- A halfword read byte by byte, the low byte at the lower address (R42). -/
theorem read16_iff (m : Memory) (a : Nat) (v : Half) : m.read16 a = some v ↔
    a + 2 ≤ 4294967296 ∧ ∀ k < 2, m.read (a + k) = some (v.extractLsb' (8 * k) 8) := by
  rw [read16_iff_bytes]
  refine and_congr_right fun _ => ⟨?_, fun h => ?_⟩
  · rintro ⟨b0, b1, h0, h1, rfl⟩ k hk
    obtain ⟨e0, e1⟩ := bytes_le16 b0 b1
    interval_cases k
    · rw [e0]; exact h0
    · rw [e1]; exact h1
  · exact ⟨_, _, h 0 (by decide), h 1 (by decide), (le16_halfBytes v).symm⟩

/-- A word read byte by byte, the low byte at the lowest address (R42). -/
theorem read32_iff (m : Memory) (a : Nat) (v : Word) : m.read32 a = some v ↔
    a + 4 ≤ 4294967296 ∧ ∀ k < 4, m.read (a + k) = some (v.extractLsb' (8 * k) 8) := by
  rw [read32_iff_bytes]
  refine and_congr_right fun _ => ⟨?_, fun h => ?_⟩
  · rintro ⟨b0, b1, b2, b3, h0, h1, h2, h3, rfl⟩ k hk
    obtain ⟨e0, e1, e2, e3⟩ := bytes_le32 b0 b1 b2 b3
    interval_cases k
    · rw [e0]; exact h0
    · rw [e1]; exact h1
    · rw [e2]; exact h2
    · rw [e3]; exact h3
  · exact ⟨_, _, _, _, h 0 (by decide), h 1 (by decide), h 2 (by decide), h 3 (by decide),
      (le32_bytes v).symm⟩

/-! ### The refusals of the fetch -/

/-- Fetch and decode fail where the fetch does, or where the decoder refuses what was fetched (R114). -/
theorem fetchDecode_error (s : State) (r : Refusal) : fetchDecode s = .error r ↔
    fetch s = .error r
      ∨ ∃ raw e, fetch s = .ok raw ∧ decode s.iset raw = .error e ∧ refusalOfDecode e = r := by
  unfold fetchDecode
  cases fetch s with
  | error r' => simp
  | ok raw => cases hd : decode s.iset raw <;> simp [hd]

/-- What the fetch refuses, the step refuses. -/
theorem step_of_fetch_error (s : State) (r : Refusal) (h : fetch s = .error r) :
    step s = .refused r :=
  (step_refused s r).mpr (.inl ((fetchDecode_error s r).mpr (.inl h)))

/-- Settles O10: the two reads byte by byte, and the fetch's refusal where a read has no value. -/
theorem memReadLittleEndian : Obligations.MemReadLittleEndian :=
  ⟨read16_iff, read32_iff, fun s hm hit hu =>
    step_of_fetch_error s _ ((fetch_error s _).mpr (.inr (.inr ⟨rfl, hm, hit, hu⟩)))⟩

/-- An instruction that was fetched and decoded is refused by its execution for the wrap alone. -/
theorem exec_refused_of_fetchDecode (s : State) (i : Instr) (r : Refusal) (hd : fetchDecode s = .ok i)
    (hx : exec i s = .refused r) : r = .pcWrap := by
  rw [← step_of_fetchDecode s i hd] at hx
  rcases Nat.lt_or_ge (s.pc.toNat + i.len) 4294967296 with hlt | hle
  · rw [step_of_fetchDecode_of_lt s i hd hlt] at hx; cases hx
  · rw [step_of_fetchDecode_of_le s i hd hle] at hx; cases hx; rfl

/-- A step is refused as FetchMisaligned by its fetch alone: the decoder and the execution do not know
this refusal. -/
theorem step_fetchMisaligned (s : State) :
    step s = .refused .fetchMisaligned ↔ fetch s = .error .fetchMisaligned := by
  refine ⟨fun h => ?_, step_of_fetch_error s _⟩
  rcases (step_refused s _).mp h with hd | ⟨i, hd, hx⟩
  · rcases (fetchDecode_error s _).mp hd with hf | ⟨raw, e, -, -, he⟩
    · exact hf
    · cases e <;> cases he
  · cases exec_refused_of_fetchDecode s i _ hd hx

/-- The fetch answers FetchMisaligned exactly where pc is misaligned (R44). -/
theorem fetch_fetchMisaligned (s : State) : fetch s = .error .fetchMisaligned ↔ misaligned s := by
  simp [fetch_error]

/-- Misalignment in the two instruction sets (R44). -/
theorem misaligned_iff (s : State) : misaligned s ↔
    (s.iset = .a32 ∧ s.pc.toNat % 4 ≠ 0) ∨ (s.iset = .t32 ∧ s.pc.toNat % 2 ≠ 0) := by
  unfold misaligned
  cases s.iset <;> simp

/-- Settles O12: FetchMisaligned is the fetch's own refusal, and its first test. -/
theorem misalignedExactly : Obligations.MisalignedExactly := fun s =>
  (step_fetchMisaligned s).trans ((fetch_fetchMisaligned s).trans (misaligned_iff s))

/-! ### The instruction at pc -/

/-- Settles O14, by the two halves of `fetchDecode`. -/
theorem stepRunsDecoded : Obligations.StepRunsDecoded := by
  intro s raw i hf hd
  exact step_of_fetchDecode s i ((fetchDecode_ok s i).mpr ⟨raw, hf, hd⟩)

/-- A halfword is read where its bytes lie. -/
theorem read16_of_readBytes (m : Memory) (a : Nat) (h : Half) (ha : a + 2 ≤ 4294967296)
    (hb : m.readBytes a 2 = some (halfBytes h)) : m.read16 a = some h := by
  simp only [Memory.read16, Config.addressLimit, if_pos ha, hb, halfBytes, le16_halfBytes]

/-- Four bytes are read as two and two. -/
theorem readBytes_append_halves (m : Memory) (a : Nat) (h l : Half)
    (hb : m.readBytes a 4 = some (halfBytes h ++ halfBytes l)) :
    m.readBytes a 2 = some (halfBytes h) ∧ m.readBytes (a + 2) 2 = some (halfBytes l) := by
  obtain ⟨b0, b1, b2, b3, h0, h1, h2, h3, hl⟩ := (readBytes_four m a _).mp hb
  simp only [halfBytes, List.cons_append, List.nil_append, List.cons.injEq, and_true] at hl
  obtain ⟨rfl, rfl, rfl, rfl⟩ := hl
  exact ⟨(readBytes_two m a _).mpr ⟨_, _, h0, h1, rfl⟩, (readBytes_two m (a + 2) _).mpr ⟨_, _, h2, h3, rfl⟩⟩

/-- An A32 word is read where its bytes lie. -/
theorem read32_of_readBytes (m : Memory) (a : Nat) (w : Word) (ha : a + 4 ≤ 4294967296)
    (hb : m.readBytes a 4 = some (layout .a32 (.word w))) : m.read32 a = some w := by
  simp only [Memory.read32, Config.addressLimit, if_pos ha, hb, layout, halfBytes, List.cons_append,
    List.nil_append, le32_halves, halves_join]

/-- The fetch gives the encoding whose bytes lie at pc (R42, R43). -/
theorem fetch_of_bytes (s : State) (i : Instr) (hi : i.iset = s.iset) (ha : s.aligned = true)
    (hit : s.iset = .t32 → s.itstate = 0#8) (hpc : s.pc.toNat + i.len ≤ 4294967296)
    (hb : s.mem.readBytes s.pc.toNat i.len = some (layout s.iset (encode i))) :
    fetch s = .ok (encode i) := by
  rw [← hi] at hit hb
  unfold fetch
  rw [← hi]
  cases i with
  | uxtbA1 c rd rotate rm =>
    exact (fetchA32_ok s _).mpr ⟨ha, _, rfl, read32_of_readBytes _ _ _ hpc hb⟩
  | uxtbT1 rm rd =>
    exact (fetchT32_ok s _).mpr ⟨ha, hit rfl, _, read16_of_readBytes _ _ _ hpc hb,
      .inl ⟨isWide_encodeT1 rm rd, rfl⟩⟩
  | uxtbT2 rd rotate rm =>
    rw [len_uxtbT2] at hpc
    obtain ⟨h1, h2⟩ := readBytes_append_halves _ _ _ _ hb
    exact (fetchT32_ok s _).mpr ⟨ha, hit rfl, _, read16_of_readBytes _ _ _ (by omega) h1,
      .inr ⟨isWide_encodeT2 rd rotate rm, _, read16_of_readBytes _ _ _ (by omega) h2,
        congrArg RawInstr.word (halves_join _).symm⟩⟩

/-- Settles O15: the fetch gives the encoding, which decodes to the instruction. -/
theorem stepRunsBytesAtPc : Obligations.StepRunsBytesAtPc := by
  intro s i hwf hi hm hit hpc hb
  have hf := fetch_of_bytes s i hi ((not_misaligned_iff s).mp hm) hit hpc hb
  exact stepRunsDecoded s _ i hf (hi ▸ decode_encode i hwf)

/-! ### Runs -/

/-- Settles O44: memory is among what a run leaves alone. -/
theorem memoryNeverChanges : Obligations.MemoryNeverChanges := by
  intro endPc n s
  obtain ⟨-, -, -, hmem, -⟩ := runChangesOnlyRegsAndPc endPc n s
  exact hmem

end Sys2Proof.Machine
end

section
/-! PROOF. The encoding (spec/30_encoding.md): the two round trips between instructions and their bits, the
values of the operand fields, and the refusals of the decoder as refusals of a step. -/

namespace Sys2Proof

/-! ### The round trips -/

/-- Settles O1, by the round trip of each encoding through its fields. -/
theorem decodeOfEncode : Obligations.DecodeOfEncode := decode_encode

/-- An A1 word is put together again from its operands, since its other fields are fixed (R61, R67). -/
theorem encodeA1_of_fields (w : Word) (c : Cond) (hc : c.field = w.extractLsb' 28 4)
    (h16 : w.extractLsb' 16 12 = 0b011011101111#12) (h8 : w.extractLsb' 8 2 = 0b00#2)
    (h4 : w.extractLsb' 4 4 = 0b0111#4) :
    encodeA1 c (regOfField (w.extractLsb' 12 4)) (rotationOfField (w.extractLsb' 10 2))
      (regOfField (w.extractLsb' 0 4)) = w := by
  have hw := joinA1 w
  rw [h16, h8, h4] at hw
  simpa only [encodeA1, hc, regField_regOfField, field_rotationOfField] using hw

/-- A T1 halfword is put together again from its operands (R62). -/
theorem encodeT1_of_fields (h : Half) (h6 : h.extractLsb' 6 10 = 0b1011001011#10) :
    encodeT1 (lowRegOfField (h.extractLsb' 3 3)) (lowRegOfField (h.extractLsb' 0 3)) = h := by
  have hh := joinT1 h
  rw [h6] at hh
  simpa only [encodeT1, lowRegField_lowRegOfField] using hh

/-- A T2 word is put together again from its operands (R63, R67). -/
theorem encodeT2_of_fields (w : Word) (h12 : w.extractLsb' 12 20 = 0b11111010010111111111#20)
    (h7 : w.extractLsb' 7 1 = 0b1#1) (h6 : w.extractLsb' 6 1 = 0b0#1) :
    encodeT2 (regOfField (w.extractLsb' 8 4)) (rotationOfField (w.extractLsb' 4 2))
      (regOfField (w.extractLsb' 0 4)) = w := by
  have hw := joinT2 w
  rw [h12, h7, h6, show (0b1#1 ++ 0b0#1 : BitVec 2) = 0b10#2 from rfl] at hw
  simpa only [encodeT2, regField_regOfField, field_rotationOfField] using hw

/-- The bits the decoder accepts are the encoding of its answer: the fixed fields are the row's, the
should-be-zero bits are 0, and every other bit is in an operand (R61 to R67). -/
theorem encode_of_decode (iset : ISet) (raw : RawInstr) (i : Instr) (h : decode iset raw = .ok i) :
    encode i = raw := by
  rcases iset with _ | _ <;> rcases raw with x | x
  · cases h
  · obtain ⟨hm, hs, -, c, hc, rfl⟩ := (decodeA1_ok x i).mp h
    obtain ⟨-, h16, h4⟩ := (matchesA1_iff x).mp hm
    exact congrArg RawInstr.word (encodeA1_of_fields x c ((condOfField_eq_some _ c).mp hc) h16
      ((strictA1_iff x hm).mp hs) h4)
  · obtain ⟨hm, rfl⟩ := (decodeT1_ok x i).mp h
    exact congrArg RawInstr.half (encodeT1_of_fields x ((matchesT1_iff x).mp hm))
  · obtain ⟨hm, hs, -, rfl⟩ := (decodeT2_ok x i).mp h
    obtain ⟨h12, h7⟩ := (matchesT2_iff x).mp hm
    exact congrArg RawInstr.word (encodeT2_of_fields x h12 h7 ((strictT2_iff x hm).mp hs))

/-- The encoder emits the should-be-zero bits as 0 (R67). -/
theorem encode_not_sbzSet (i : Instr) : ¬ Machine.sbzSet i.iset (encode i) := by
  cases i with
  | uxtbA1 c rd rotate rm =>
    obtain ⟨-, -, -, -, h8, -, -⟩ := encodeA1_fields c rd rotate rm
    exact not_not_intro h8
  | uxtbT1 rm rd => exact id
  | uxtbT2 rd rotate rm =>
    obtain ⟨-, -, -, h6, -, -⟩ := encodeT2_fields rd rotate rm
    exact not_not_intro h6

end Sys2Proof

namespace Sys2Proof.Machine

/-- Settles O2: what the decoder answers is well formed, of its instruction set, and encodes to the bits. -/
theorem encodeOfDecode : Obligations.EncodeOfDecode := fun iset raw i h =>
  ⟨decode_ok_wf iset raw i h, decode_ok_iset iset raw i h, encode_of_decode iset raw i h⟩

/-! ### The Decode fragments -/

/-- The register a 4-bit field names is the field's value (R64). -/
@[simp] theorem regOfField_val (f : BitVec 4) : (regOfField f).val = f.toNat := rfl

/-- The register a 3-bit field names is the field's value (R64). -/
@[simp] theorem lowRegOfField_val (f : BitVec 3) : (lowRegOfField f).val = f.toNat := rfl

/-- The rotation that a `rotate` field asks: `UInt(rotate:'000')`, which is 8 times the field (R64). -/
theorem rotationAmount_rotationOfField (f : BitVec 2) :
    rotationAmount (rotationOfField f) = (f ++ 0b000#3).toNat
      ∧ rotationAmount (rotationOfField f) = 8 * f.toNat
      ∧ rotationAmount (rotationOfField f) ∈ [0, 8, 16, 24] := by
  revert f; decide

/-- The decoder's test on register 15 comes after the pattern and the should-be-zero bits (R66 step 4). -/
theorem decode_unpredictableR15 (iset : ISet) (raw : RawInstr) :
    decode iset raw = .error .unpredictableR15 ↔
      uxtbPattern iset raw ∧ ¬ sbzSet iset raw ∧ r15Fields iset raw := by
  simp [decode_error]

/-- Settles O4, from the operands that each row of the decoder reads and its test on register 15. -/
theorem decodeFragments : Obligations.DecodeFragments := by
  refine ⟨fun w i h => ?_, fun x i h => ?_, fun w i h => ?_, fun iset w hp hs => ?_⟩
  · obtain ⟨-, -, -, c, -, rfl⟩ := (decodeA1_ok w i).mp h
    exact ⟨regOfField_val _, regOfField_val _, rotationAmount_rotationOfField _⟩
  · obtain ⟨-, rfl⟩ := (decodeT1_ok x i).mp h
    simp [destReg, srcReg, instrRotation]
  · obtain ⟨-, -, -, rfl⟩ := (decodeT2_ok w i).mp h
    exact ⟨regOfField_val _, regOfField_val _, rotationAmount_rotationOfField _⟩
  · rw [decode_unpredictableR15]
    exact ⟨fun h15 => ⟨hp, hs, h15⟩, fun ⟨_, _, h15⟩ => h15⟩

/-! ### The decoder's refusals in a step -/

/-- A 32-bit T32 instruction is read as two halfwords exactly when its halves are (R43). -/
theorem exists_halves_iff (P Q : Half → Prop) (w : Word) :
    (∃ hw1, P hw1 ∧ ∃ hw2, Q hw2 ∧ w = hw1 ++ hw2) ↔ P (w.extractLsb' 16 16) ∧ Q (w.extractLsb' 0 16) := by
  constructor
  · rintro ⟨hw1, h1, hw2, h2, rfl⟩
    obtain ⟨e1, e2⟩ := halves_split hw1 hw2
    exact ⟨e1.symm ▸ h1, e2.symm ▸ h2⟩
  · exact fun ⟨h1, h2⟩ => ⟨_, h1, _, h2, (halves_join w).symm⟩

/-- The fetch gives the bits at pc where the alignment and itstate allow it (R42 to R44). -/
theorem fetch_ok_iff_fetchable (s : State) (raw : RawInstr) : fetch s = .ok raw ↔ fetchable s raw := by
  unfold fetchable instrBitsAtPc fetch
  rw [not_misaligned_iff]
  cases s.iset with
  | a32 =>
    show fetchA32 s = _ ↔ _
    rw [fetchA32_ok]
    cases raw <;> simp
  | t32 =>
    show fetchT32 s = _ ↔ _
    rw [fetchT32_ok]
    cases raw with
    | half h => simp [← Bool.not_eq_true, isWide_iff]
    | word w =>
      have hw := exists_halves_iff (fun h => s.mem.read16 s.pc.toNat = some h ∧ isWide h = true)
        (fun h => s.mem.read16 (s.pc.toNat + 2) = some h) w
      simp only [and_assoc, isWide_iff] at hw
      simp [isWide_iff, hw]

/-- What the decoder refuses of the bits fetched, the step refuses. -/
theorem step_of_decode_error (s : State) (raw : RawInstr) (e : DecodeError) (hf : fetch s = .ok raw)
    (hd : decode s.iset raw = .error e) : step s = .refused (refusalOfDecode e) :=
  (step_refused s _).mpr (.inl ((fetchDecode_error s _).mpr (.inr ⟨raw, e, hf, hd, rfl⟩)))

/-- After the fetch only the decoder answers NotInScope: an execution is refused for the wrap alone. -/
theorem step_notInScope_of_fetch (s : State) (raw : RawInstr) (hf : fetch s = .ok raw) :
    step s = .refused .notInScope ↔ decode s.iset raw = .error .notInScope := by
  refine ⟨fun h => ?_, step_of_decode_error s raw .notInScope hf⟩
  cases hd : decode s.iset raw with
  | ok i =>
    rw [stepRunsDecoded s raw i hf hd] at h
    cases exec_refused_of_fetchDecode s i _ ((fetchDecode_ok s i).mpr ⟨raw, hf, hd⟩) h
  | error e =>
    rw [step_of_decode_error s raw e hf hd] at h
    cases e <;> cases h
    rfl

/-- The decoder answers NotInScope for bits without a pattern, and for no others (R68). -/
theorem decode_notInScope (iset : ISet) (raw : RawInstr) :
    decode iset raw = .error .notInScope ↔ ¬ uxtbPattern iset raw := by
  simp [decode_error]

/-- Settles O6: the decoder refuses what was fetched, and the encoder emits 0 in these bits. -/
theorem shouldBeZeroBits : Obligations.ShouldBeZeroBits :=
  ⟨fun s raw hf hp hs => step_of_decode_error s raw .unpredictableSBZ
      ((fetch_ok_iff_fetchable s raw).mpr hf)
      ((decode_error _ _ _).mpr (.inr (.inl ⟨rfl, hp, hs⟩))),
    encode_not_sbzSet⟩

/-- Settles O7: only the decoder answers NotInScope, and only for bits without a pattern. -/
theorem notInScopeExactly : Obligations.NotInScopeExactly := fun s raw hf =>
  (step_notInScope_of_fetch s raw ((fetch_ok_iff_fetchable s raw).mpr hf)).trans
    (decode_notInScope s.iset raw)

end Sys2Proof.Machine
end

section
/-! PROOF. The instruction (spec/40_uxtb.md): what each encoding writes, as a rotation, as a quotient and
as a field of the source, and the way from the bits at pc to the effect. -/

namespace Sys2Proof

/-- Bits that are the encoding of a well-formed instruction decode to it. -/
theorem decode_of_encode_eq (i : Instr) (raw : RawInstr) (h : i.wf = true) (he : encode i = raw) :
    decode i.iset raw = .ok i :=
  he ▸ decode_encode i h

/-- Settles O5: each word is the encoding of the instruction beside it. -/
theorem exampleWordsDecode : Obligations.ExampleWordsDecode :=
  ⟨decode_of_encode_eq (.uxtbA1 .al 2 .ror8 3) _ rfl rfl,
    decode_of_encode_eq (.uxtbA1 .al 14 .ror24 12) _ rfl rfl,
    decode_of_encode_eq (.uxtbT1 1 0) _ rfl rfl,
    decode_of_encode_eq (.uxtbT1 5 3) _ rfl rfl,
    decode_of_encode_eq (.uxtbT2 8 .ror8 9) _ rfl rfl,
    decode_of_encode_eq (.uxtbT2 12 .ror24 14) _ rfl rfl⟩

/-! ### The bits that decode -/

/-- Register fields other than 1111 name no register 15 (R66 step 4). -/
theorem namesR15_eq_false (f g : BitVec 4) (h : ¬ (f = 0b1111#4 ∨ g = 0b1111#4)) :
    namesR15 (regOfField f) (regOfField g) = false :=
  Bool.eq_false_iff.mpr (mt (namesR15_fields f g).mp h)

/-- An A1 word without a ground of a refusal decodes to its fields, under the condition its `cond` field
codes (R61, R64). -/
theorem decode_a1_of_fields (w : Word) (h28 : w.extractLsb' 28 4 ≠ 0b1111#4)
    (h16 : w.extractLsb' 16 12 = 0b011011101111#12) (h4 : w.extractLsb' 4 4 = 0b0111#4)
    (h8 : w.extractLsb' 8 2 = 0b00#2)
    (h15 : ¬ (w.extractLsb' 12 4 = 0b1111#4 ∨ w.extractLsb' 0 4 = 0b1111#4)) :
    ∃ c : Cond, c.field = w.extractLsb' 28 4 ∧ decode .a32 (.word w) = .ok (.uxtbA1 c
      (regOfField (w.extractLsb' 12 4)) (rotationOfField (w.extractLsb' 10 2))
      (regOfField (w.extractLsb' 0 4))) := by
  obtain ⟨c, hc⟩ := condOfField_isSome _ h28
  have hcode := (condOfField_eq_some _ c).mp hc
  refine ⟨c, hcode, decode_of_encode_eq (.uxtbA1 ..) _ ?_
    (congrArg RawInstr.word (encodeA1_of_fields w c hcode h16 h8 h4))⟩
  simp [Instr.wf, namesR15_eq_false _ _ h15]

/-- A T1 halfword decodes to its fields (R62, R64). -/
theorem decode_t1_of_fields (h : Half) (h6 : h.extractLsb' 6 10 = 0b1011001011#10) :
    decode .t32 (.half h) = .ok (.uxtbT1 (lowRegOfField (h.extractLsb' 3 3))
      (lowRegOfField (h.extractLsb' 0 3))) :=
  decode_of_encode_eq (.uxtbT1 ..) _ rfl (congrArg RawInstr.half (encodeT1_of_fields h h6))

/-- A T2 word without a ground of a refusal decodes to its fields (R63, R64). -/
theorem decode_t2_of_fields (w : Word) (h12 : w.extractLsb' 12 20 = 0b11111010010111111111#20)
    (h7 : w.extractLsb' 7 1 = 0b1#1) (h6 : w.extractLsb' 6 1 = 0b0#1)
    (h15 : ¬ (w.extractLsb' 8 4 = 0b1111#4 ∨ w.extractLsb' 0 4 = 0b1111#4)) :
    decode .t32 (.word w) = .ok (.uxtbT2 (regOfField (w.extractLsb' 8 4))
      (rotationOfField (w.extractLsb' 4 2)) (regOfField (w.extractLsb' 0 4))) := by
  refine decode_of_encode_eq (.uxtbT2 ..) _ ?_
    (congrArg RawInstr.word (encodeT2_of_fields w h12 h7 h6))
  simp [Instr.wf, namesR15_eq_false _ _ h15]

/-- A field of the second halfword is that field of the word. -/
theorem extract_append_low (h l : Half) (a n : Nat) (han : a + n ≤ 16) :
    (h ++ l : Word).extractLsb' a n = l.extractLsb' a n := by
  have e := extract_extract (h ++ l) 0 16 a n han
  rwa [(halves_split h l).2, Nat.zero_add, eq_comm] at e

/-- The 20 top bits of a word are its first halfword and the 4 top bits of its second. -/
theorem extract_append_top (h l : Half) :
    (h ++ l : Word).extractLsb' 12 20 = (h ++ l.extractLsb' 12 4 : BitVec 20) := by
  refine BitVec.eq_of_getLsbD_eq fun i hi => ?_
  rw [BitVec.getLsbD_extractLsb', BitVec.getLsbD_append, BitVec.getLsbD_append]
  interval_cases i <;> simp

end Sys2Proof

namespace Sys2Proof.Machine

/-! ### The byte written -/

/-- What UXTB writes, with the library's rotation (R90). -/
theorem uxtbResult_eq_rotateRight (r : Rotation) (v : Word) :
    uxtbResult r v = ((v.rotateRight (rotationAmount r)).extractLsb' 0 8).zeroExtend 32 := by
  rw [uxtbResult, ror32_eq_rotateRight v _ (rotationAmount_lt r)]
  rfl

/-- What UXTB writes, in the closed form of R91. -/
theorem uxtbResult_eq_selectedByte (r : Rotation) (v : Word) :
    uxtbResult r v = selectedByte (rotationAmount r) v := by
  rw [← BitVec.toNat_inj, uxtbResult_toNat, selectedByte, BitVec.toNat_ofNat]
  omega

/-- What UXTB writes, as the field of the source that the `rotate` field selects (R64, R91). -/
theorem uxtbResult_rotationOfField (f : BitVec 2) (v : Word) :
    uxtbResult (rotationOfField f) v = (v.extractLsb' (8 * f.toNat) 8).zeroExtend 32 := by
  obtain ⟨-, h8, -⟩ := rotationAmount_rotationOfField f
  rw [uxtbResult_eq, h8]
  rfl

/-! ### An execution, with its next state written out -/

/-- The next state after a condition that passed (R90). -/
theorem uxtbNext_of_passed (i : Instr) (s : State)
    (h : conditionPassed (instrCond i) s.cpsr = true) :
    uxtbNext i s = { s with
      regs := s.regs.set (destReg i) (uxtbResult (rotateOf i) (s.reg (srcReg i)))
      pc := s.pc + BitVec.ofNat 32 i.len } := by
  rw [uxtbNext, if_pos h]
  rfl

/-- The next state after a condition that failed (R90). -/
theorem uxtbNext_of_failed (i : Instr) (s : State)
    (h : conditionPassed (instrCond i) s.cpsr = false) :
    uxtbNext i s = { s with pc := s.pc + BitVec.ofNat 32 i.len } := by
  rw [uxtbNext, h]
  rfl

/-- A well-formed instruction outside an IT block is refused for the wrap where pc would reach the top
(R24). -/
theorem exec_pcWrap (i : Instr) (s : State) (hwf : i.wf = true)
    (hit : i.iset = .t32 → s.itstate = 0#8) (hpc : 4294967296 ≤ s.pc.toNat + i.len) :
    exec i s = .refused .pcWrap := by
  have hrun : ¬ Runnable i s := fun ⟨_, _, hlt⟩ => Nat.not_lt.mpr hpc hlt
  rw [exec_not_runnable i s hrun, if_neg fun ⟨ht, h0⟩ => h0 (hit ht), if_pos hwf]

/-- Settles O17: an execution is refused for the wrap or gives the one next state there can be. -/
theorem uxtbOperation : Obligations.UxtbOperation := by
  refine fun i s hwf hit => ⟨exec_pcWrap i s hwf hit, fun hpc hc => ?_, fun hpc hc => ?_⟩
  · rw [exec_runnable i s ⟨hwf, hit, hpc⟩, uxtbNext_of_passed i s hc, uxtbResult_eq_rotateRight,
      instrRotation_eq]
  · rw [exec_runnable i s ⟨hwf, hit, hpc⟩, uxtbNext_of_failed i s hc]

/-- Registers other than 15 make an A1 or T2 term well formed (R21). -/
theorem not_namesR15 {rd rm : RegNum} (hd : rd ≠ 15) (hm : rm ≠ 15) : (!namesR15 rd rm) = true := by
  simp [namesR15, hd, hm]

/-- Settles O18: A1 is runnable, and the byte it writes is the selected one. -/
theorem uxtbA1Completes : Obligations.UxtbA1Completes := by
  intro c rd rm rotate s hd hm hpc hc
  have hrun : Runnable (.uxtbA1 c rd rotate rm) s := ⟨not_namesR15 hd hm, nofun, hpc⟩
  rw [exec_runnable _ s hrun, uxtbNext_of_passed (.uxtbA1 ..) s hc, uxtbResult_eq_selectedByte]
  rfl

/-- Settles O19: A1 is runnable, and its next state has no register written. -/
theorem uxtbA1ConditionFails : Obligations.UxtbA1ConditionFails := by
  intro c rd rm rotate s hd hm hpc hc
  have hrun : Runnable (.uxtbA1 c rd rotate rm) s := ⟨not_namesR15 hd hm, nofun, hpc⟩
  rw [exec_runnable _ s hrun, uxtbNext_of_failed (.uxtbA1 ..) s hc]
  rfl

/-- Settles O20: T1 is runnable for any registers, and its rotation by 0 selects the low byte. -/
theorem uxtbT1Completes : Obligations.UxtbT1Completes := by
  intro rm rd s hit hpc
  have hrun : Runnable (.uxtbT1 rm rd) s := ⟨rfl, fun _ => hit, hpc⟩
  have hlow : selectedByte 0 s.regs[rm.val] = BitVec.ofNat 32 ((s.regs[rm.val]).toNat % 256) := by
    rw [selectedByte, Nat.pow_zero, Nat.div_one]
  rw [exec_runnable _ s hrun, uxtbNext_of_passed _ s rfl, uxtbResult_eq_selectedByte, ← hlow]
  rfl

/-- Settles O21: T2 is runnable, and the byte it writes is the selected one. -/
theorem uxtbT2Completes : Obligations.UxtbT2Completes := by
  intro rd rm rotate s hd hm hit hpc
  have hrun : Runnable (.uxtbT2 rd rotate rm) s := ⟨not_namesR15 hd hm, fun _ => hit, hpc⟩
  rw [exec_runnable _ s hrun, uxtbNext_of_passed _ s rfl, uxtbResult_eq_selectedByte]
  rfl

/-! ### From the bits at pc to the outcome of the step -/

/-- The fetch of an A32 word (R43). -/
theorem fetch_a32_word (s : State) (w : Word) (hi : s.iset = .a32) (hpc : s.pc.toNat % 4 = 0)
    (hr : s.mem.read32 s.pc.toNat = some w) : fetch s = .ok (.word w) := by
  simp only [fetch, hi]
  exact (fetchA32_ok s _).mpr ⟨(aligned_a32 s hi).mpr hpc, w, rfl, hr⟩

/-- The fetch of a 16-bit T32 instruction (R43). -/
theorem fetch_t32_half (s : State) (h : Half) (hi : s.iset = .t32) (hpc : s.pc.toNat % 2 = 0)
    (hit : s.itstate = 0#8) (hr : s.mem.read16 s.pc.toNat = some h) (hw : isWide h = false) :
    fetch s = .ok (.half h) := by
  simp only [fetch, hi]
  exact (fetchT32_ok s _).mpr ⟨(aligned_t32 s hi).mpr hpc, hit, h, hr, .inl ⟨hw, rfl⟩⟩

/-- The fetch of a 32-bit T32 instruction (R43). -/
theorem fetch_t32_word (s : State) (hw1 hw2 : Half) (hi : s.iset = .t32) (hpc : s.pc.toNat % 2 = 0)
    (hit : s.itstate = 0#8) (hr1 : s.mem.read16 s.pc.toNat = some hw1) (hw : isWide hw1 = true)
    (hr2 : s.mem.read16 (s.pc.toNat + 2) = some hw2) : fetch s = .ok (.word (hw1 ++ hw2)) := by
  simp only [fetch, hi]
  exact (fetchT32_ok s _).mpr ⟨(aligned_t32 s hi).mpr hpc, hit, hw1, hr1, .inr ⟨hw, hw2, hr2, rfl⟩⟩

/-- A halfword with the fixed bits of T1 is a 16-bit instruction (R43, R62). -/
theorem isWide_of_t1 (h : Half) (h6 : h.extractLsb' 6 10 = 0b1011001011#10) : isWide h = false := by
  rw [← encodeT1_of_fields h h6]
  exact isWide_encodeT1 _ _

/-- The decoder refuses a pattern with a should-be-zero bit set (R67). -/
theorem decode_unpredictableSBZ (iset : ISet) (raw : RawInstr) :
    decode iset raw = .error .unpredictableSBZ ↔ uxtbPattern iset raw ∧ sbzSet iset raw := by
  simp [decode_error]

section
variable {s : State} {raw : RawInstr} {iset : ISet} (hf : fetch s = .ok raw) (hi : s.iset = iset)
include hf hi

/-- Bits without a pattern are refused as NotInScope (R68). -/
theorem step_of_not_uxtbPattern (hp : ¬ uxtbPattern iset raw) : step s = .refused .notInScope :=
  step_of_decode_error s raw .notInScope hf (hi ▸ (decode_notInScope iset raw).mpr hp)

/-- A pattern with a should-be-zero bit set is refused as UnpredictableSBZ (R67). -/
theorem step_of_sbzSet (hp : uxtbPattern iset raw) (hs : sbzSet iset raw) :
    step s = .refused .unpredictableSBZ :=
  step_of_decode_error s raw .unpredictableSBZ hf
    (hi ▸ (decode_unpredictableSBZ iset raw).mpr ⟨hp, hs⟩)

/-- A pattern that names register 15 is refused as UnpredictableR15 (R66 step 4). -/
theorem step_of_r15Fields (hp : uxtbPattern iset raw) (hs : ¬ sbzSet iset raw)
    (h15 : r15Fields iset raw) : step s = .refused .unpredictableR15 :=
  step_of_decode_error s raw .unpredictableR15 hf
    (hi ▸ (decode_unpredictableR15 iset raw).mpr ⟨hp, hs, h15⟩)

/-- Bits fetched that decode are the instruction at pc. -/
theorem fetchDecode_of_decode {i : Instr} (hd : decode iset raw = .ok i) : fetchDecode s = .ok i :=
  (fetchDecode_ok s i).mpr ⟨raw, hf, hi ▸ hd⟩

end

/-! ### A 32-bit T32 instruction by its second halfword (R63) -/

/-- The fixed bits of T2 in the second halfword. -/
theorem uxtbPattern_t2_halfwords (hw2 : Half) (h12 : hw2.extractLsb' 12 4 = 0b1111#4)
    (h7 : hw2.extractLsb' 7 1 = 0b1#1) : uxtbPattern .t32 (.word (0xFA5F#16 ++ hw2)) := by
  refine ⟨?_, (extract_append_low _ hw2 7 1 (by decide)).trans h7⟩
  rw [extract_append_top, h12]
  rfl

/-- The should-be-zero bit of T2 is bit 6 of the second halfword. -/
theorem sbzSet_t2_halfwords (hw1 hw2 : Half) :
    sbzSet .t32 (.word (hw1 ++ hw2)) ↔ hw2.extractLsb' 6 1 ≠ 0b0#1 := by
  rw [sbzSet, extract_append_low hw1 hw2 6 1 (by decide)]

/-- The register fields of T2 are in the second halfword. -/
theorem r15Fields_t2_halfwords (hw1 hw2 : Half) : r15Fields .t32 (.word (hw1 ++ hw2)) ↔
    hw2.extractLsb' 8 4 = 0b1111#4 ∨ hw2.extractLsb' 0 4 = 0b1111#4 := by
  rw [r15Fields, extract_append_low hw1 hw2 8 4 (by decide),
    extract_append_low hw1 hw2 0 4 (by decide)]

/-- Two halfwords of T2 without a ground of a refusal decode to the fields of the second (R64). -/
theorem decode_t2_of_halfwords (hw2 : Half) (h12 : hw2.extractLsb' 12 4 = 0b1111#4)
    (h7 : hw2.extractLsb' 7 1 = 0b1#1) (h6 : hw2.extractLsb' 6 1 = 0b0#1)
    (h15 : ¬ (hw2.extractLsb' 8 4 = 0b1111#4 ∨ hw2.extractLsb' 0 4 = 0b1111#4)) :
    decode .t32 (.word (0xFA5F#16 ++ hw2)) = .ok (.uxtbT2 (regOfField (hw2.extractLsb' 8 4))
      (rotationOfField (hw2.extractLsb' 4 2)) (regOfField (hw2.extractLsb' 0 4))) := by
  have low := extract_append_low 0xFA5F#16 hw2
  obtain ⟨p12, p7⟩ := uxtbPattern_t2_halfwords hw2 h12 h7
  rw [← low 6 1 (by decide)] at h6
  rw [← r15Fields_t2_halfwords 0xFA5F#16] at h15
  rw [decode_t2_of_fields _ p12 p7 h6 h15, low 8 4 (by decide), low 4 2 (by decide),
    low 0 4 (by decide)]

/-- Settles O22: the grounds of a refusal in their order, and without one the word decodes to its fields. -/
theorem a1WordToEffect : Obligations.A1WordToEffect := by
  intro s w hi hpc hr h16 h4
  have hf := fetch_a32_word s w hi hpc hr
  split_ifs with h28 h8 h15 htop
  · exact step_of_not_uxtbPattern hf hi fun ⟨hcond, _, _⟩ => hcond h28
  · exact step_of_sbzSet hf hi ⟨h28, h16, h4⟩ h8
  · exact step_of_r15Fields hf hi ⟨h28, h16, h4⟩ h8 h15
  all_goals obtain ⟨c, hc, hd⟩ := decode_a1_of_fields w h28 h16 h4 (not_not.mp h8) h15
  all_goals have hdec := fetchDecode_of_decode hf hi hd
  · exact step_of_fetchDecode_of_le s _ hdec htop
  · refine ⟨c, hc, ?_⟩
    rw [step_of_fetchDecode_of_lt s _ hdec (Nat.not_le.mp htop)]
    split_ifs with hcond
    · rw [uxtbNext_of_passed (.uxtbA1 ..) s hcond, rotateOf, uxtbResult_rotationOfField]
      rfl
    · rw [uxtbNext_of_failed (.uxtbA1 ..) s (Bool.eq_false_iff.mpr hcond)]
      rfl

/-- Settles O23: a T1 halfword always decodes to its fields, so only the wrap can refuse it. -/
theorem t1HalfwordToEffect : Obligations.T1HalfwordToEffect := by
  intro s h hi hpc hit hr h6
  have hf := fetch_t32_half s h hi hpc hit hr (isWide_of_t1 h h6)
  have hdec := fetchDecode_of_decode hf hi (decode_t1_of_fields h h6)
  split_ifs with htop
  · exact step_of_fetchDecode_of_le s _ hdec htop
  · rw [step_of_fetchDecode_of_lt s _ hdec (Nat.not_le.mp htop), uxtbNext_of_passed _ s rfl, uxtbResult_eq]
    rfl

/-- Settles O24: the grounds of a refusal in their order, and without one the halfwords decode to their
fields. -/
theorem t2HalfwordsToEffect : Obligations.T2HalfwordsToEffect := by
  intro s hw2 hi hpc hit hr1 hr2 h12 h7
  have hf := fetch_t32_word s _ hw2 hi hpc hit hr1 rfl hr2
  have hp := uxtbPattern_t2_halfwords hw2 h12 h7
  split_ifs with h6 h15 htop
  · exact step_of_sbzSet hf hi hp ((sbzSet_t2_halfwords _ hw2).mpr h6)
  · exact step_of_r15Fields hf hi hp (mt (sbzSet_t2_halfwords _ hw2).mp h6)
      ((r15Fields_t2_halfwords _ hw2).mpr h15)
  all_goals have hd := decode_t2_of_halfwords hw2 h12 h7 (not_not.mp h6) h15
  all_goals have hdec := fetchDecode_of_decode hf hi hd
  · exact step_of_fetchDecode_of_le s _ hdec htop
  · rw [step_of_fetchDecode_of_lt s _ hdec (Nat.not_le.mp htop), uxtbNext_of_passed _ s rfl, rotateOf,
      uxtbResult_rotationOfField]
    rfl

end Sys2Proof.Machine
end

section
/-! PROOF. The outcomes of a step (spec/60_exceptions.md): the grounds of a refusal in their order, and the
two outcomes of a step as a run carries them on. -/

namespace Sys2Proof.Machine

/-! ### The first ground that holds (R114) -/

/-- What the fetch refuses is the first ground: nothing was tested before it. -/
theorem firstGround_of_fetch_error (s : State) (r : Refusal) (h : fetch s = .error r) :
    firstGround s r := by
  rcases (fetch_error s r).mp h with ⟨rfl, hm⟩ | ⟨rfl, hit⟩ | ⟨rfl, hu⟩
  · exact hm
  · exact hit
  · exact hu

/-- What the decoder refuses of the bits fetched is the first ground. -/
theorem firstGround_of_decode_error (s : State) (raw : RawInstr) (e : DecodeError)
    (hf : fetchable s raw) (h : decode s.iset raw = .error e) : firstGround s (refusalOfDecode e) := by
  rcases (decode_error s.iset raw e).mp h with ⟨rfl, hp⟩ | ⟨rfl, hs⟩ | ⟨rfl, h15⟩
  · exact ⟨raw, hf, hp⟩
  · exact ⟨raw, hf, hs⟩
  · exact ⟨raw, hf, h15⟩

/-- Bits without a ground of the decoder decode to an instruction of their length. -/
theorem exists_decode_ok (iset : ISet) (raw : RawInstr) (hp : uxtbPattern iset raw)
    (hs : ¬ sbzSet iset raw) (h15 : ¬ r15Fields iset raw) :
    ∃ i, decode iset raw = .ok i ∧ i.len = raw.len := by
  cases hd : decode iset raw with
  | ok i =>
    obtain ⟨hlen, -⟩ := decode_ok_facts iset raw i hd
    exact ⟨i, rfl, hlen⟩
  | error e =>
    rcases (decode_error iset raw e).mp hd with ⟨-, hn⟩ | ⟨-, -, hn⟩ | ⟨-, -, -, hn⟩
    · exact absurd hp hn
    · exact absurd hn hs
    · exact absurd hn h15

/-- The wrap is the first ground exactly where an instruction is fetched and decoded at pc whose advance
would reach the top (R24). -/
theorem firstGround_pcWrap (s : State) :
    firstGround s .pcWrap ↔ ∃ i, fetchDecode s = .ok i ∧ 4294967296 ≤ s.pc.toNat + i.len := by
  constructor
  · rintro ⟨raw, hf, hp, hs, h15, htop⟩
    obtain ⟨i, hd, hlen⟩ := exists_decode_ok s.iset raw hp hs h15
    exact ⟨i, fetchDecode_of_decode ((fetch_ok_iff_fetchable s raw).mpr hf) rfl hd, hlen ▸ htop⟩
  · rintro ⟨i, h, htop⟩
    obtain ⟨raw, hf, hd⟩ := (fetchDecode_ok s i).mp h
    obtain ⟨hlen, hp, hs, h15⟩ := decode_ok_facts s.iset raw i hd
    exact ⟨raw, (fetch_ok_iff_fetchable s raw).mp hf, hp, hs, h15, hlen ▸ htop⟩

/-- A step is refused for the first ground that holds: by its fetch, by its decoder or for the wrap. -/
theorem firstGround_of_step_refused (s : State) (r : Refusal) (h : step s = .refused r) :
    firstGround s r := by
  rcases (step_refused s r).mp h with hd | ⟨i, hd, hx⟩
  · rcases (fetchDecode_error s r).mp hd with hf | ⟨raw, e, hf, he, rfl⟩
    · exact firstGround_of_fetch_error s r hf
    · exact firstGround_of_decode_error s raw e ((fetch_ok_iff_fetchable s raw).mp hf) he
  · obtain rfl := exec_refused_of_fetchDecode s i r hd hx
    obtain ⟨-, hwrap⟩ := pcAdvancesByLength
    exact (firstGround_pcWrap s).mpr ⟨i, hd, (hwrap s i hd).mpr h⟩

/-- The first ground that holds refuses the step. -/
theorem step_of_firstGround (s : State) (r : Refusal) (h : firstGround s r) : step s = .refused r := by
  have hfetch : ∀ raw, fetchable s raw → fetch s = .ok raw := fun raw =>
    (fetch_ok_iff_fetchable s raw).mpr
  cases r with
  | notModelled => exact h.elim
  | fetchMisaligned => exact step_of_fetch_error s _ ((fetch_error s _).mpr (.inl ⟨rfl, h⟩))
  | inITBlock => exact step_of_fetch_error s _ ((fetch_error s _).mpr (.inr (.inl ⟨rfl, h⟩)))
  | fetchUnmapped => exact step_of_fetch_error s _ ((fetch_error s _).mpr (.inr (.inr ⟨rfl, h⟩)))
  | notInScope =>
    obtain ⟨raw, hf, hp⟩ := h
    exact step_of_not_uxtbPattern (hfetch raw hf) rfl hp
  | unpredictableSBZ =>
    obtain ⟨raw, hf, hp, hs⟩ := h
    exact step_of_sbzSet (hfetch raw hf) rfl hp hs
  | unpredictableR15 =>
    obtain ⟨raw, hf, hp, hs, h15⟩ := h
    exact step_of_r15Fields (hfetch raw hf) rfl hp hs h15
  | pcWrap =>
    obtain ⟨i, hd, htop⟩ := (firstGround_pcWrap s).mp h
    exact step_of_fetchDecode_of_le s i hd htop

/-- A step is refused for a reason exactly when it is the first ground that holds. -/
theorem step_refused_iff_firstGround (s : State) (r : Refusal) :
    step s = .refused r ↔ firstGround s r :=
  ⟨firstGround_of_step_refused s r, step_of_firstGround s r⟩

/-- A step goes on exactly when it is refused for no reason. -/
theorem exists_step_next_iff (s : State) : (∃ t, step s = .next t) ↔ ∀ r, step s ≠ .refused r := by
  constructor
  · rintro ⟨t, ht⟩ r hr
    cases ht.symm.trans hr
  · exact fun h => (step_cases s).resolve_right fun ⟨r, hr⟩ => h r hr

/-- Settles O16: each ground refuses the step, and the step knows no other. -/
theorem firstGroundDecides : Obligations.FirstGroundDecides :=
  ⟨step_refused_iff_firstGround, fun s =>
    (exists_step_next_iff s).trans (forall_congr' fun r => not_congr (step_refused_iff_firstGround s r))⟩

/-! ### The two outcomes (R112) -/

/-- The next state differs from the state at most in R[d] and pc, whether the condition passed or not. -/
theorem uxtbNext_eq_set_dest (i : Instr) (s : State) :
    uxtbNext i s = { s with
      regs := s.regs.set (destReg i) ((uxtbNext i s).reg (destReg i))
      pc := (uxtbNext i s).pc } := by
  cases h : conditionPassed (instrCond i) s.cpsr with
  | true => rw [uxtbNext_dest i s h, uxtbNext_pc, uxtbNext_of_passed i s h]
  | false => simp [uxtbNext_of_failed i s h, State.reg]

/-- Where a step goes on, it gives what the instruction at pc gives, which changes at most R[d], never
R[15], and pc. -/
theorem step_next_dest (s t : State) (h : step s = .next t) :
    ∃ i, fetchDecode s = .ok i ∧ exec i s = .next t ∧ destReg i ≠ 15
      ∧ t = { s with regs := s.regs.set (destReg i) (t.reg (destReg i)), pc := t.pc } := by
  obtain ⟨i, hd, hx⟩ := (step_next s t).mp h
  obtain ⟨⟨hwf, -, -⟩, rfl⟩ := exec_next i s t hx
  obtain ⟨hdest, -⟩ := wf_regs_ne_15 i hwf
  exact ⟨i, hd, hx, hdest, uxtbNext_eq_set_dest i s⟩

/-! ### A refused run -/

/-- A run is over at `endPc`, however many steps are allowed (R133). -/
theorem runTo_of_pc_eq (endPc : Word) (n : Nat) (s : State) (h : s.pc = endPc) :
    runTo endPc n s = .final s := by
  cases n <;> rw [runTo, if_pos h]

/-- Short of `endPc` a run goes on with the next state. -/
theorem runTo_succ_of_next (endPc : Word) (n : Nat) (s t : State) (hpc : s.pc ≠ endPc)
    (h : step s = .next t) : runTo endPc (n + 1) s = runTo endPc n t := by
  simp only [runTo, if_neg hpc, h]

/-- Short of `endPc` a refused step refuses the run at its state (R115). -/
theorem runTo_succ_of_refused (endPc : Word) (n : Nat) (s : State) (r : Refusal) (hpc : s.pc ≠ endPc)
    (h : step s = .refused r) : runTo endPc (n + 1) s = .refused s r := by
  simp only [runTo, if_neg hpc, h]

/-- A run of no steps is not refused. -/
theorem runTo_zero_ne_refused (endPc : Word) (s t : State) (r : Refusal) :
    runTo endPc 0 s ≠ .refused t r := by
  unfold runTo
  split <;> simp

/-- A refused run stays refused with the same state and reason when more steps are allowed. -/
theorem runTo_refused_add (endPc : Word) (n k : Nat) (s t : State) (r : Refusal)
    (h : runTo endPc n s = .refused t r) : runTo endPc (n + k) s = .refused t r := by
  induction n generalizing s with
  | zero => exact absurd h (runTo_zero_ne_refused endPc s t r)
  | succ n ih =>
    rw [Nat.succ_add]
    by_cases hpc : s.pc = endPc
    · rw [runTo_of_pc_eq _ _ s hpc] at h
      cases h
    · rcases step_cases s with ⟨u, hs⟩ | ⟨r', hs⟩
      · rw [runTo_succ_of_next _ _ s u hpc hs] at h ⊢
        exact ih u h
      · rwa [runTo_succ_of_refused _ _ s r' hpc hs] at h ⊢

/-- Settles O36, from the two outcomes of a step and what a run makes of a refusal. -/
theorem stepNextOrRefused : Obligations.StepNextOrRefused := by
  refine ⟨fun s => ?_, runTo_succ_of_refused, runTo_refused_add⟩
  refine (step_cases s).imp_left fun ⟨t, ht⟩ => ?_
  obtain ⟨i, hi⟩ := step_next_dest s t ht
  exact ⟨t, i, ht, hi⟩

end Sys2Proof.Machine
end

section
/-! PROOF. The source is read before the destination is written (spec/70_reset_and_hazards.md R135). -/

namespace Sys2Proof.Machine

/-- Where the condition passed, R[d] afterwards is the selected byte of what R[m] held before, whether or
not d and m are one register (R91, R135). -/
theorem uxtbNext_dest_eq_selectedByte (i : Instr) (s : State)
    (h : conditionPassed (instrCond i) s.cpsr = true) :
    (uxtbNext i s).reg (destReg i) = selectedByte (instrRotation i) (s.reg (srcReg i)) := by
  rw [uxtbNext_dest i s h, uxtbResult_eq_selectedByte, instrRotation_eq]

/-- Settles O34: the byte written is one of the source's value before, and here the source is the
destination. -/
theorem sourceReadFirst : Obligations.SourceReadFirst := by
  intro i s hrun hsame hpassed
  have hdest := uxtbNext_dest_eq_selectedByte i s hpassed
  rw [hsame] at hdest
  exact ⟨uxtbNext i s, exec_runnable i s hrun, hdest⟩

end Sys2Proof.Machine
end

section
/-! PROOF. The launch premises (spec/70_reset_and_hazards.md R132): the step of the text's first
instruction, and what it leaves for the rest. -/

namespace Sys2Proof.Machine

/-- An instruction of the instruction set in use keeps pc aligned (R24, R44). -/
theorem uxtbNext_aligned (i : Instr) (s : State) (hi : i.iset = s.iset) (hr : Runnable i s)
    (ha : s.aligned = true) : (uxtbNext i s).aligned = true := by
  have hpc := uxtbNext_pc_toNat i s hr
  have hset := uxtbNext_iset i s
  cases hs : s.iset with
  | a32 =>
    have h4 := (aligned_a32 s hs).mp ha
    have hlen := len_of_iset_a32 i (hi.trans hs)
    exact (aligned_a32 _ (hset.trans hs)).mpr (by omega)
  | t32 =>
    have h2 := (aligned_t32 s hs).mp ha
    have hlen := len_even i
    exact (aligned_t32 _ (hset.trans hs)).mpr (by omega)

/-- The text ends at `endPc`, so its first instruction ends below 2^32: it is runnable (R24). -/
theorem LaunchOk.runnable {s : State} {i : Instr} {rest : List Instr} {endPc : Word}
    (h : LaunchOk s (i :: rest) endPc) : Runnable i s := by
  obtain ⟨-, hit, ⟨hwf, hi, -, -⟩, hend⟩ := h
  have hlt := endPc.isLt
  rw [textLength] at hend
  exact ⟨hwf, fun ht => hit (hi.symm.trans ht), by omega⟩

/-- The bytes at pc are the first instruction's, so the step executes it (P3). -/
theorem LaunchOk.step_eq {s : State} {i : Instr} {rest : List Instr} {endPc : Word}
    (h : LaunchOk s (i :: rest) endPc) : step s = .next (uxtbNext i s) := by
  have hr := h.runnable
  obtain ⟨-, -, hpc⟩ := h.runnable
  obtain ⟨ha, hit, ⟨hwf, hi, hb, -⟩, -⟩ := h
  rw [stepRunsBytesAtPc s i hwf hi ((not_misaligned_iff s).mpr ha) hit (by omega) hb,
    exec_runnable i s hr]

/-- After the first instruction pc stands where the rest of the text begins. -/
theorem LaunchOk.next {s : State} {i : Instr} {rest : List Instr} {endPc : Word}
    (h : LaunchOk s (i :: rest) endPc) : LaunchOk (uxtbNext i s) rest endPc := by
  have hr := h.runnable
  obtain ⟨ha, hit, ⟨-, hi, -, htext⟩, hend⟩ := h
  refine ⟨uxtbNext_aligned i s hi hr ha, by simpa using hit, ?_, ?_⟩
  · rwa [uxtbNext_mem, uxtbNext_iset, uxtbNext_pc_toNat i s hr]
  · rwa [uxtbNext_pc_toNat i s hr, Nat.add_assoc]

/-- Settles O48: progress and preservation for the first instruction of the text, and a text of no length
ends where it begins. -/
theorem launchPremisesCarryRun : Obligations.LaunchPremisesCarryRun := by
  refine ⟨fun s i rest endPc h => ⟨_, h.step_eq, h.next⟩, fun s endPc h => ?_⟩
  obtain ⟨-, -, -, hend⟩ := h
  exact BitVec.eq_of_toNat_eq hend

end Sys2Proof.Machine
end

section
/-! PROOF. The assembler forms (spec/30_encoding.md R72 to R79): when the 16-bit form is selected, and the
round trip of a printed line. -/

namespace Sys2Proof.Machine

/-! ### Operands -/

@[simp] theorem rotationOfAmount_amountOfRotation (r : Rotation) :
    rotationOfAmount (amountOfRotation r) = some r := by cases r <;> rfl

@[simp] theorem lowOfReg_regOfLow (r : LowReg) : lowOfReg (regOfLow r) = some r :=
  dif_pos r.isLt

/-- The register of a 3-bit field is one of R0 to R7. -/
theorem exists_regOfLow (r : RegNum) (h : r.val < 8) : ∃ r' : LowReg, regOfLow r' = r :=
  ⟨⟨r.val, h⟩, rfl⟩

theorem lowOfReg_eq_none (r : RegNum) (h : ¬ r.val < 8) : lowOfReg r = none := dif_neg h

/-- The operands fit T1 (R75, R76). -/
theorem fitsT1_iff (rd rm : RegNum) (rotate : Rotation) :
    fitsT1 rd rm rotate = true ↔ rd.val < 8 ∧ rm.val < 8 ∧ rotate = .ror0 := by
  simp [fitsT1, and_assoc]

/-- The 16-bit form of operands that fit it. -/
theorem assembleT1_regOfLow (rd rm : LowReg) :
    assembleT1 (regOfLow rd) (regOfLow rm) .ror0 = some (.uxtbT1 rm rd) := by
  simp [assembleT1]

/-- Operands that do not fit T1 have no 16-bit form (R76). -/
theorem assembleT1_eq_none (rd rm : RegNum) (rotate : Rotation)
    (h : ¬ (rd.val < 8 ∧ rm.val < 8 ∧ rotate = .ror0)) : assembleT1 rd rm rotate = none := by
  unfold assembleT1
  by_cases hm : rm.val < 8
  · by_cases hd : rd.val < 8
    · cases rotate with
      | ror0 => exact absurd ⟨hd, hm, rfl⟩ h
      | ror8 | ror16 | ror24 => simp
    · simp [lowOfReg_eq_none rd hd]
  · simp [lowOfReg_eq_none rm hm]

/-! ### The three qualifiers of an unconditional T32 line (R75 to R77) -/

/-- An unconditional line with both registers and the amount of a rotation written out. -/
def uncondLine (q : Option Qualifier) (rd rm : RegNum) (rotate : Rotation) : AsmLine :=
  { cond := none, qualifier := q, rd := some rd, rm := rm, amount := amountOfRotation rotate }

section
variable {rd rm : RegNum} (rotate : Rotation) (h15 : namesR15 rd rm = false)
include h15

theorem assemble_t32_wide :
    assemble .t32 (uncondLine (some .wide) rd rm rotate) = some (.uxtbT2 rd rotate rm) := by
  simp [assemble, uncondLine, h15]

theorem assemble_t32_narrow :
    assemble .t32 (uncondLine (some .narrow) rd rm rotate) = assembleT1 rd rm rotate := by
  simp [assemble, uncondLine, h15]

theorem assemble_t32_unqualified : assemble .t32 (uncondLine none rd rm rotate)
    = (assembleT1 rd rm rotate).or (some (.uxtbT2 rd rotate rm)) := by
  simp [assemble, uncondLine, h15]

end

/-- Settles O9: the qualifier asks for a form, and without one T1 is tried first. -/
theorem assemblerSelectsEncoding : Obligations.AssemblerSelectsEncoding := by
  intro rd rm rotate hd hm
  have h15 : namesR15 rd rm = false := by simpa using not_namesR15 hd hm
  refine ⟨assemble_t32_wide rotate h15, ?_, fun hfit => ?_⟩
  · rintro ⟨hd8, hm8, rfl⟩
    obtain ⟨rd', rfl⟩ := exists_regOfLow rd hd8
    obtain ⟨rm', rfl⟩ := exists_regOfLow rm hm8
    have hT1 := assembleT1_regOfLow rd' rm'
    exact ⟨rd', rm', rfl, rfl, (assemble_t32_unqualified .ror0 h15).trans (by rw [hT1]; rfl),
      (assemble_t32_narrow .ror0 h15).trans hT1⟩
  · have hT1 := assembleT1_eq_none rd rm rotate hfit
    exact ⟨(assemble_t32_unqualified rotate h15).trans (by rw [hT1]; rfl),
      (assemble_t32_narrow rotate h15).trans hT1⟩

/-! ### Printing and assembling -/

/-- The condition AL is printed by leaving it out, and a condition left out is AL (R77). -/
theorem printedCond_getD (c : Cond) : (if c = .al then none else some c).getD Cond.al = c := by
  split_ifs with h
  · exact h.symm
  · rfl

/-- T2 is printed with `.W` exactly where T1 would be selected otherwise (R79). -/
theorem asmOfInstr_uxtbT2 (rd rm : RegNum) (rotate : Rotation) : asmOfInstr (.uxtbT2 rd rotate rm)
    = uncondLine (if fitsT1 rd rm rotate then some .wide else none) rd rm rotate := rfl

/-- Settles O8: the qualifier and the condition printed are those from which the encoding is found again. -/
theorem printedLineAssemblesBack : Obligations.PrintedLineAssemblesBack := by
  intro i hwf
  cases i with
  | uxtbA1 c rd rotate rm =>
    have h15 : namesR15 rd rm = false := by simpa [Instr.wf] using hwf
    simp [assemble, asmOfInstr, h15, printedCond_getD]
  | uxtbT1 rm rd =>
    have h15 : namesR15 (regOfLow rd) (regOfLow rm) = false := by
      simpa using not_namesR15 (regOfLow_ne_15 rd) (regOfLow_ne_15 rm)
    have h := assemble_t32_unqualified .ror0 h15
    rw [assembleT1_regOfLow] at h
    exact h
  | uxtbT2 rd rotate rm =>
    have h15 : namesR15 rd rm = false := by simpa [Instr.wf] using hwf
    rw [asmOfInstr_uxtbT2]
    split_ifs with hfit
    · exact assemble_t32_wide rotate h15
    · refine (assemble_t32_unqualified rotate h15).trans ?_
      rw [assembleT1_eq_none rd rm rotate (mt (fitsT1_iff rd rm rotate).mpr hfit)]
      rfl

end Sys2Proof.Machine
end

section
/-! PROOF. The fetch (spec/20_memory.md R43), and the state after reset. -/

namespace Sys2Proof.Machine

/-- The length rule by the five top bits (R43). -/
theorem isWide_iff_mem (h : Half) :
    isWide h = true ↔ h.extractLsb' 11 5 ∈ [0b11101#5, 0b11110#5, 0b11111#5] := by
  simp [isWide, or_assoc]

/-- What an A32 fetch gives is a word. -/
theorem len_of_fetch_a32 (s : State) (raw : RawInstr) (hf : fetch s = .ok raw) (hi : s.iset = .a32) :
    raw.len = 4 := by
  have hf' : fetchA32 s = .ok raw := by simpa only [fetch, hi] using hf
  obtain ⟨-, w, rfl, -⟩ := (fetchA32_ok s raw).mp hf'
  rfl

/-- What a T32 fetch gives is a word where its first halfword says so, else a halfword. -/
theorem len_of_fetch_t32 (s : State) (raw : RawInstr) (hw1 : Half) (hf : fetch s = .ok raw)
    (hi : s.iset = .t32) (hr : s.mem.read16 s.pc.toNat = some hw1) :
    raw.len = if isWide hw1 then 4 else 2 := by
  have hf' : fetchT32 s = .ok raw := by simpa only [fetch, hi] using hf
  obtain ⟨-, -, h, hr', hraw⟩ := (fetchT32_ok s raw).mp hf'
  obtain rfl : h = hw1 := Option.some.inj (hr'.symm.trans hr)
  rcases hraw with ⟨hn, rfl⟩ | ⟨hw, hw2, -, rfl⟩
  · rw [hn]; rfl
  · rw [hw]; rfl

/-- Settles O11: the fetch gives the bits at pc, whose length the first halfword says in T32. -/
theorem fetchReadsInstruction : Obligations.FetchReadsInstruction := by
  refine ⟨fetch_ok_iff_fetchable, fun s raw h => ?_⟩
  have hf := (fetch_ok_iff_fetchable s raw).mpr h
  refine ⟨len_of_fetch_a32 s raw hf, fun ht hw1 hr => ?_⟩
  rw [len_of_fetch_t32 s raw hw1 hf ht hr]
  exact if_congr (isWide_iff_mem hw1) rfl rfl

/-- Settles O42: memory is empty, pc is 0 and the instruction set is A32. -/
theorem resetHasInv : Obligations.ResetHasInv := ⟨reset_mem_wf, fun _ => rfl, nofun⟩

/-- Settles O43: the word at address 0 is not mapped, and no ground comes before that. -/
theorem resetHasNothingToFetch : Obligations.ResetHasNothingToFetch :=
  step_of_firstGround State.reset .fetchUnmapped ⟨not_not_intro rfl, nofun, rfl⟩

end Sys2Proof.Machine
end

section
/-! PROOF. The value that UXTB writes (spec/00_scope.md R8, spec/40_uxtb.md R91, R95). -/

namespace Sys2Proof.Machine

/-! ### The rotation -/

/-- The part shifted up by a rotation: the low `n` bits, moved to the top. -/
theorem toNat_shiftLeft_top (v : Word) (n : Nat) (hn : n < 32) :
    (v <<< (32 - n)).toNat = v.toNat % 2 ^ n * 2 ^ (32 - n) := by
  have hsplit : 2 ^ 32 = 2 ^ n * 2 ^ (32 - n) := by rw [← Nat.pow_add, Nat.add_sub_cancel' hn.le]
  rw [BitVec.toNat_shiftLeft, Nat.shiftLeft_eq, hsplit, Nat.mul_mod_mul_right]

/-- The part shifted down by a rotation lies below the part shifted up. -/
theorem toNat_ushiftRight_lt (v : Word) (n : Nat) (hn : n < 32) :
    v.toNat / 2 ^ n < 2 ^ (32 - n) := by
  refine Nat.div_lt_of_lt_mul ?_
  rw [← Nat.pow_add, Nat.add_sub_cancel' hn.le]
  exact v.isLt

/-- Settles O30: the two parts of the rotation share no bit, so their disjunction is their sum. -/
theorem rorBody : Obligations.RorBody := by
  refine fun v => ⟨?_, fun n _ hn => ?_⟩
  · simp [ror32]
  · calc (ror32 v n).toNat
        = (v.toNat % 2 ^ n) <<< (32 - n) ||| v.toNat / 2 ^ n := by
          rw [ror32, BitVec.toNat_or, toNat_shiftLeft_top v n hn, BitVec.toNat_ushiftRight,
            Nat.shiftRight_eq_div_pow, Nat.shiftLeft_eq, Nat.or_comm]
      _ = v.toNat % 2 ^ n * 2 ^ (32 - n) + v.toNat / 2 ^ n := by
          rw [← Nat.shiftLeft_add_eq_or_of_lt (toNat_ushiftRight_lt v n hn), Nat.shiftLeft_eq]

/-! ### The byte selected -/

/-- A byte with 24 zero bits above it. -/
theorem zext32_eq_append (b : Byte) : zext32 b = 0#24 ++ b :=
  BitVec.setWidth_eq_append (by decide)

/-- Settles O31: the rotation brings one byte of the source to the low end. -/
theorem rotationSelectsByte : Obligations.RotationSelectsByte := by
  intro b0 b1 b2 b3 v
  obtain ⟨h0, h8, h16, h24⟩ := bytes_le32 b0 b1 b2 b3
  simp only [uxtbResult_eq, zext32_eq_append]
  exact ⟨congrArg _ h0, congrArg _ h8, congrArg _ h16, congrArg _ h24⟩

/-- Settles O32: the destination of the one next state there can be. -/
theorem resultIsOneByte : Obligations.ResultIsOneByte := by
  intro i s t h hpassed
  obtain ⟨-, rfl⟩ := exec_next i s t h
  have hdest : ((uxtbNext i s).reg (destReg i)).toNat
      = (s.reg (srcReg i)).toNat / 2 ^ instrRotation i % 256 := by
    rw [uxtbNext_dest i s hpassed, uxtbResult_toNat, instrRotation_eq]
  exact ⟨hdest, by omega⟩

/-- The low byte of a value of one byte is the value, and its other bytes are 0 (R95). -/
theorem uxtbResult_of_le_255 (r : Rotation) (v : Word) (h : v.toNat ≤ 255) :
    uxtbResult r v = if rotationAmount r = 0 then v else 0#32 := by
  rw [← BitVec.toNat_inj, uxtbResult_toNat]
  split_ifs with h0
  · rw [h0, Nat.pow_zero, Nat.div_one, Nat.mod_eq_of_lt (Nat.lt_succ_of_le h)]
  · have h8 := Nat.le_of_dvd (Nat.pos_of_ne_zero h0) (rotationAmount_dvd r)
    have hpow : 2 ^ 8 ≤ 2 ^ rotationAmount r := Nat.pow_le_pow_right (by decide) h8
    rw [Nat.div_eq_of_lt (by omega)]
    rfl

/-- Settles O33: the second UXTB reads a value of one byte. -/
theorem resultOfResult : Obligations.ResultOfResult := by
  intro i j s t u hi hci hj hcj hsrc
  obtain ⟨-, hbyte⟩ := resultIsOneByte i s t hi hci
  obtain ⟨-, rfl⟩ := exec_next j t u hj
  rw [uxtbNext_dest j t hcj, hsrc, uxtbResult_of_le_255 _ _ hbyte, instrRotation_eq]

end Sys2Proof.Machine
end

section
/-! PROOF. The execution and the step (spec/10_state.md, spec/40_uxtb.md): the refusals of terms the decoder
does not answer, the condition table, the agreement of the encodings, and what a step reads. -/

namespace Sys2Proof.Machine

/-! ### Refusals of exec (R28, R92, R94) -/

theorem namesR15_of_or {rd rm : RegNum} (h : rd = 15 ∨ rm = 15) : namesR15 rd rm = true := by
  simpa [namesR15] using h

/-- Settles O25: exec tests the register numbers before the condition. -/
theorem register15Refused : Obligations.Register15Refused := fun _ _ _ _ _ h =>
  ⟨if_pos (namesR15_of_or h), fun hit => (if_pos hit).trans (if_pos (namesR15_of_or h))⟩

/-- Settles O26: exec tests itstate before anything else. -/
theorem itBlockRefused : Obligations.ItBlockRefused := fun _ _ _ _ _ _ hit =>
  ⟨if_neg hit, if_neg hit⟩

/-! ### The condition (R69) -/

/-- Settles O29: the flags of each condition are a Boolean expression of the flags named, and the codes
are a finite table. -/
theorem conditionTable : Obligations.ConditionTable := by
  intro f
  simp only [conditionPassed, Bool.not_eq_true', Bool.and_eq_true, Bool.or_eq_true, beq_iff_eq,
    bne_iff_ne, true_and]
  decide

/-- The condition reads N, Z, C and V alone. -/
theorem conditionPassed_congr (c : Cond) (f g : Cpsr)
    (h : f.n = g.n ∧ f.z = g.z ∧ f.c = g.c ∧ f.v = g.v) :
    conditionPassed c f = conditionPassed c g := by
  obtain ⟨hn, hz, hc, hv⟩ := h
  cases c <;> simp only [conditionPassed, hn, hz, hc, hv]

/-! ### The encodings agree (R96) -/

/-- Settles O35: A1 and T2 make the same tests and then do the same operation; T1 and T2 write the same
value. -/
theorem encodingsAgree : Obligations.EncodingsAgree := by
  refine ⟨fun c rd rm rotate s hit hc => ?_, fun rm rd s hit hpc => ?_⟩
  · show execUxtbA1 c rd rotate rm s = execUxtbT2 rd rotate rm s
    rw [execUxtbA1, execUxtbT2, if_pos hit, hc]
    rfl
  · have hT1 : Runnable (.uxtbT1 rm rd) s := ⟨rfl, fun _ => hit, by rw [len_uxtbT1]; omega⟩
    have hT2 : Runnable (.uxtbT2 (regOfLow rd) .ror0 (regOfLow rm)) s :=
      ⟨not_namesR15 (regOfLow_ne_15 rd) (regOfLow_ne_15 rm), fun _ => hit, hpc⟩
    refine ⟨_, _, exec_runnable _ s hT1, exec_runnable _ s hT2, ?_⟩
    rw [uxtbNext_of_passed _ s rfl, uxtbNext_of_passed _ s rfl]
    simp only [len_uxtbT1, len_uxtbT2, BitVec.add_assoc]
    rfl

/-! ### What a step reads (R30) -/

/-- Where an instruction is fetched and decoded, the step is refused exactly where its advance would reach
the top, and always as PcWrap. -/
theorem step_refused_of_fetchDecode (s : State) (i : Instr) (r : Refusal) (h : fetchDecode s = .ok i) :
    step s = .refused r ↔ r = .pcWrap ∧ 4294967296 ≤ s.pc.toNat + i.len := by
  rcases Nat.lt_or_ge (s.pc.toNat + i.len) 4294967296 with hlt | hle
  · simp [step_of_fetchDecode_of_lt s i h hlt, hlt]
  · simp [step_of_fetchDecode_of_le s i h hle, hle, eq_comm]

/-- Where the fetch or the decoder refuses, so does the step. -/
theorem step_of_fetchDecode_error (s : State) (r : Refusal) (h : fetchDecode s = .error r) :
    step s = .refused r := by
  simp only [step, h]

/-- The instruction at pc comes to the same condition in states that agree on iset and, in A32, on the
flags. -/
theorem conditionPassed_of_fetchDecode (s₁ s₂ : State) (i : Instr) (h : fetchDecode s₁ = .ok i)
    (hf : s₁.iset = .a32 → s₁.cpsr.n = s₂.cpsr.n ∧ s₁.cpsr.z = s₂.cpsr.z ∧ s₁.cpsr.c = s₂.cpsr.c
      ∧ s₁.cpsr.v = s₂.cpsr.v) :
    conditionPassed (instrCond i) s₁.cpsr = conditionPassed (instrCond i) s₂.cpsr := by
  have hi := fetchDecode_iset s₁ i h
  cases hs : s₁.iset with
  | a32 => exact conditionPassed_congr _ _ _ (hf hs)
  | t32 => rw [conditionPassed_of_t32 i _ (hi.trans hs), conditionPassed_of_t32 i _ (hi.trans hs)]

/-- Two next states of one instruction agree on the destination where the condition passed and the sources
agreed; where it failed no register is written. -/
theorem uxtbNext_agree (i : Instr) (s₁ s₂ : State)
    (hc : conditionPassed (instrCond i) s₁.cpsr = conditionPassed (instrCond i) s₂.cpsr)
    (hsrc : s₁.reg (srcReg i) = s₂.reg (srcReg i)) :
    if conditionPassed (instrCond i) s₁.cpsr then
      (uxtbNext i s₁).reg (destReg i) = (uxtbNext i s₂).reg (destReg i)
    else (uxtbNext i s₁).regs = s₁.regs ∧ (uxtbNext i s₂).regs = s₂.regs := by
  split_ifs with h
  · rw [uxtbNext_dest i s₁ h, uxtbNext_dest i s₂ (hc ▸ h), hsrc]
  · have h₁ := Bool.eq_false_iff.mpr h
    exact ⟨uxtbNext_regs_of_failed i s₁ h₁, uxtbNext_regs_of_failed i s₂ (hc ▸ h₁)⟩

/-- Settles O38: both states fetch and decode the same, and the instruction at pc then does the same. -/
theorem readSetDecidesStep : Obligations.ReadSetDecidesStep := by
  intro s₁ s₂ hpc hi hit hm hf hsrc
  have hfd := fetchDecode_congr s₁ s₂ hpc hi hit hm
  refine ⟨fun r => ?_, fun t₁ h => ?_⟩
  · cases hd : fetchDecode s₁ with
    | error e => rw [step_of_fetchDecode_error s₁ e hd, step_of_fetchDecode_error s₂ e (hfd ▸ hd)]
    | ok i =>
      rw [step_refused_of_fetchDecode s₁ i r hd, step_refused_of_fetchDecode s₂ i r (hfd ▸ hd), hpc]
  · obtain ⟨i, hd, ⟨-, -, hlt⟩, rfl⟩ := step_next_uxtb s₁ t₁ h
    refine ⟨uxtbNext i s₂, i, step_of_fetchDecode_of_lt s₂ i (hfd ▸ hd) (hpc ▸ hlt), hd, ?_,
      uxtbNext_agree i s₁ s₂ (conditionPassed_of_fetchDecode s₁ s₂ i hd hf) (hsrc i hd)⟩
    rw [uxtbNext_pc, uxtbNext_pc, hpc]

/-! ### Register 15 (R21) -/

/-- The next state with another value in a register that the instruction does not name. -/
theorem uxtbNext_setReg (i : Instr) (s : State) (r : RegNum) (v : Word) (hd : destReg i ≠ r)
    (hm : srcReg i ≠ r) : uxtbNext i (s.setReg r v) = (uxtbNext i s).setReg r v := by
  unfold uxtbNext
  rw [setReg_cpsr, reg_setReg_ne s r _ v hm]
  split
  · rw [setReg_comm s r _ v _ hd.symm]
    rfl
  · rfl

/-- Settles O39: the fetch reads no register, and the decoder has refused register 15. -/
theorem register15Inert : Obligations.Register15Inert := by
  refine ⟨fun s v => step_commutes (fun t => t.setReg 15 v) s (fetchDecode_congr _ _ rfl rfl rfl fun _ => rfl)
    fun i hdec => ?_, step_keeps_reg15⟩
  obtain ⟨raw, -, hraw⟩ := (fetchDecode_ok s i).mp hdec
  obtain ⟨hd, hm⟩ := wf_regs_ne_15 i (decode_ok_wf _ raw i hraw)
  exact exec_commutes (fun t => t.setReg 15 v) i s rfl (fun _ => rfl) (uxtbNext_setReg i s 15 v hd hm)

end Sys2Proof.Machine
end

section
/-! PROOF. The end of a run (spec/70_reset_and_hazards.md R133, spec/60_exceptions.md R112). -/

namespace Sys2Proof.Machine

/-- What a result says of the state it stands at: a final run is at `endPc`, and a refused run is not, and
its step is refused for that reason. -/
def ResultJustified (endPc : Word) : RunResult → Prop
  | .final t => t.pc = endPc
  | .refused t r => t.pc ≠ endPc ∧ step t = .refused r
  | .running _ => True

/-- The last test a run makes is of the state it stands at, and justifies its result. -/
theorem runTo_resultJustified (endPc : Word) (n : Nat) (s : State) :
    ResultJustified endPc (runTo endPc n s) := by
  induction n generalizing s with
  | zero =>
    unfold runTo
    split_ifs with hpc
    · exact hpc
    · trivial
  | succ n ih =>
    by_cases hpc : s.pc = endPc
    · rw [runTo_of_pc_eq _ _ s hpc]
      exact hpc
    · rcases step_cases s with ⟨t, hs⟩ | ⟨r, hs⟩
      · rw [runTo_succ_of_next _ _ s t hpc hs]
        exact ih t
      · rw [runTo_succ_of_refused _ _ s r hpc hs]
        exact ⟨hpc, hs⟩

/-- Settles O46, from what justifies a final and a refused result. -/
theorem runFinalAtEndPc : Obligations.RunFinalAtEndPc := by
  refine ⟨fun endPc n s t h => ?_, runTo_of_pc_eq, fun endPc n s t r h => ?_⟩
  · have hs := runTo_resultJustified endPc n s
    rwa [h] at hs
  · have hs := runTo_resultJustified endPc n s
    rwa [h] at hs

/-- A step advances pc by at least a halfword (R24). -/
theorem step_pc_add_two_le (s t : State) (h : step s = .next t) : s.pc.toNat + 2 ≤ t.pc.toNat := by
  obtain ⟨i, -, hr, rfl⟩ := step_next_uxtb s t h
  rw [uxtbNext_pc_toNat i s hr]
  cases i <;> simp

/-- A run is over within the halfwords that are left above pc. -/
theorem runTo_ends (endPc : Word) (n : Nat) (s : State) (h : 4294967296 ≤ s.pc.toNat + 2 * n) :
    (∃ t, runTo endPc n s = .final t) ∨ ∃ t r, runTo endPc n s = .refused t r := by
  induction n generalizing s with
  | zero => exact absurd s.pc.isLt (Nat.not_lt.mpr h)
  | succ n ih =>
    by_cases hpc : s.pc = endPc
    · exact .inl ⟨s, runTo_of_pc_eq _ _ s hpc⟩
    · rcases step_cases s with ⟨t, hs⟩ | ⟨r, hs⟩
      · have hadv := step_pc_add_two_le s t hs
        rw [runTo_succ_of_next _ _ s t hpc hs]
        exact ih t (by omega)
      · exact .inr ⟨s, r, runTo_succ_of_refused _ _ s r hpc hs⟩

/-- Settles O47: there are 2^31 halfwords, and no step goes back. -/
theorem everyRunEnds : Obligations.EveryRunEnds := fun endPc s =>
  ⟨2147483648, le_rfl, runTo_ends endPc 2147483648 s (by omega)⟩

end Sys2Proof.Machine
end
